-- ==== Sys2Proof/Word.lean ====
section
/-! DEFINITION. The word types of the engine (spec 00_scope.md R10): unsigned values of 8, 32 and 64 bits. -/

namespace Sys2Proof

/-- `u8`: one byte of DMEM, of the input buffer or of a serialised word (R10). -/
abbrev Byte := BitVec 8

/-- `u32`: a chaining word, a message word, a register of the aperture or a command word (R10, R90). -/
abbrev Word := BitVec 32

/-- `u64`: the byte counter of a context (R10, R21). -/
abbrev DWord := BitVec 64

end Sys2Proof
end

