-- ==== Sys2Proof/Config.lean ====
section
/-! DEFINITION. What one build of the engine fixes (spec 00_scope.md R9, 92_eei_decisions.md "Open parameters"), and the
values the spec leaves free. -/

namespace Sys2Proof

/-- The parameters of R9 that a claim may depend on. The machine's state carries one such record and no step changes it, so a
statement about every state is a statement about every build (log entry 1). -/
structure Config where
  /-- `DMEM_SIZE`: bytes of local data memory (R9, D3). -/
  dmemSize : Nat
  /-- `SELFTEST_PRESENT`: a self-test step follows every reset (R9, D24). -/
  selftestPresent : Bool
  /-- `ACCEL`: an alternative compression datapath exists (R9, D25). No operation reads it: every datapath gives the results of the one
  `compress` (R131), and the choice never changes while the engine runs (R267; log entry 11). -/
  accel : Bool
deriving DecidableEq, Repr

/-- The range R9 gives `DMEM_SIZE`: a multiple of 4 with `64 <= DMEM_SIZE <= 0xF000`. -/
abbrev Config.wf (c : Config) : Prop :=
  c.dmemSize % 4 = 0 ∧ 64 ≤ c.dmemSize ∧ c.dmemSize ≤ 0xF000

/-- The defaults of R9 and of 92_eei_decisions.md "Open parameters": 4096 bytes of DMEM, no self-test, no alternative datapath. -/
def Config.default : Config := { dmemSize := 4096, selftestPresent := false, accel := false }

/-- FREE VALUE (R263, U11; log entry 2). The byte that DMEM address `a` happens to hold after hardware reset number `epoch`, as
long as neither the host nor a command has written it. No value of it can be proved, so every claim quantifies over all
contents. -/
opaque Config.dmemAtReset (epoch : Nat) (a : Nat) : Byte

/-- FREE VALUE (R9 `SELFTEST_FAIL`, R266, U4; log entry 3). Whether self-test run number `n` reports a mismatch. -/
opaque Config.selftestFail (n : Nat) : Bool

end Sys2Proof
end

