-- ==== Sys2Proof/Syntax.lean ====
section
/-! DEFINITION. The seven commands of the engine (spec 30_encoding.md R90 to R92): the only instructions it has. Their address
and length operands are not fields of the command word: they stand in ARG0 to ARG4 (R93). -/

namespace Sys2Proof

/-- One command word, decoded. The byte-count fields are unsigned counts (R91), so they are natural numbers. `Instr.wf` says which
counts the 8-bit fields can carry. -/
inductive Instr where
  /-- INIT, opcode 0x01, format O (R150). -/
  | init (outlen : Nat)
  /-- INIT_KEY, opcode 0x02, format K (R155). -/
  | initKey (outlen : Nat) (keylen : Nat)
  /-- INIT_PARAM, opcode 0x03, format N (R152). -/
  | initParam
  /-- UPDATE, opcode 0x04, format N (R170). -/
  | update
  /-- FINAL, opcode 0x05, format O (R190). -/
  | final (outlen : Nat)
  /-- HMAC, opcode 0x06, format O (R210). -/
  | hmac (outlen : Nat)
  /-- SETLN, opcode 0x07, format S (R196). -/
  | setln (ln : Bool)
deriving DecidableEq, Repr

end Sys2Proof
end

