-- ==== Sys2Proof/WellFormed.lean ====
section
/-! DEFINITION. Which commands a command word can express (spec 30_encoding.md R90, R91). -/

namespace Sys2Proof

/-- What an 8-bit length field of a command word can hold: 0 to 255 (R91). A value outside a command's own legal range, such as an
OUTLEN of 0 or 200, is still a legal encoding: it raises an error when executed. -/
abbrev fieldFits (n : Nat) : Prop := n < 256

/-- A command that some command word encodes: every length field fits its 8 bits (R91). -/
def Instr.wf : Instr → Bool
  | .init outlen => decide (fieldFits outlen)
  | .initKey outlen keylen => decide (fieldFits outlen) && decide (fieldFits keylen)
  | .initParam => true
  | .update => true
  | .final outlen => decide (fieldFits outlen)
  | .hmac outlen => decide (fieldFits outlen)
  | .setln _ => true

end Sys2Proof
end

