-- ==== Sys2Proof/Decode.lean ====
section
/-! DEFINITION. The decoder of command words (spec 30_encoding.md R94), and after it the encoder, from the formats of R90. Byte order
is decided here once, for command words laid out as bytes and for the data of the hash alike (R68). -/

namespace Sys2Proof

/-! ## Byte order (R11, R68) -/

/-- The word whose bytes, lowest address first, are `b0 b1 b2 b3`: `LE32` of R11. -/
def wordOfBytes (b0 b1 b2 b3 : Byte) : Word := b3 ++ b2 ++ b1 ++ b0

/-- `LE32BYTES(w)`: the bytes of a word, lowest address first (R11). -/
def bytesOfWord (w : Word) : List Byte :=
  [w.extractLsb' 0 8, w.extractLsb' 8 8, w.extractLsb' 16 8, w.extractLsb' 24 8]

/-! ## Fields (R90, R91) -/

/-- OPC, bits 7:0. -/
def opcOf (w : Word) : Byte := w.extractLsb' 0 8

/-- OUTLEN, bits 15:8, as an unsigned count. -/
def outlenOf (w : Word) : Nat := (w.extractLsb' 8 8).toNat

/-- KEYLEN, bits 23:16, as an unsigned count. -/
def keylenOf (w : Word) : Nat := (w.extractLsb' 16 8).toNat

/-- LN, bit 16. -/
def lnOf (w : Word) : Bool := w.getLsbD 16

/-! ## The opcode map (R92, R94) -/

/-- One row of the opcode map: the opcode and the bits that must be zero under it. -/
structure OpcodeRow where
  mnemonic : String
  opc : Byte
  resvMask : Word
deriving DecidableEq, Repr

/-- `MASK[op] = RESV_MASK[op] | 0x000000FF` (R94). -/
def OpcodeRow.mask (r : OpcodeRow) : Word := r.resvMask ||| 0x000000FF

/-- `MATCH[op] = op` (R94). -/
def OpcodeRow.value (r : OpcodeRow) : Word := r.opc.setWidth 32

/-- A word selects a row exactly when `(w & MASK[op]) = MATCH[op]` (R94). -/
def OpcodeRow.selects (r : OpcodeRow) (w : Word) : Bool := w &&& r.mask == r.value

/-- `RESV_MASK[0x01 .. 0x07]` (R94). -/
def opcodeTable : List OpcodeRow :=
  [ { mnemonic := "INIT", opc := 0x01, resvMask := 0xFFFF0000 },
    { mnemonic := "INIT_KEY", opc := 0x02, resvMask := 0xFF000000 },
    { mnemonic := "INIT_PARAM", opc := 0x03, resvMask := 0xFFFFFF00 },
    { mnemonic := "UPDATE", opc := 0x04, resvMask := 0xFFFFFF00 },
    { mnemonic := "FINAL", opc := 0x05, resvMask := 0xFFFF0000 },
    { mnemonic := "HMAC", opc := 0x06, resvMask := 0xFFFF0000 },
    { mnemonic := "SETLN", opc := 0x07, resvMask := 0xFFFEFF00 } ]

/-- The mnemonic of a command in the opcode map (R92). -/
def Instr.mnemonic : Instr → String
  | .init _ => "INIT"
  | .initKey _ _ => "INIT_KEY"
  | .initParam => "INIT_PARAM"
  | .update => "UPDATE"
  | .final _ => "FINAL"
  | .hmac _ => "HMAC"
  | .setln _ => "SETLN"

/-- Why a word is no command (R95), or why bytes hold no command word. -/
inductive DecodeError where
  /-- OPC is 0x00 or 0x08 to 0xFF. -/
  | illegalOpcode (opc : Byte)
  /-- The opcode is legal and these reserved bits are not zero. -/
  | reservedBits (opc : Byte) (bits : Word)
  /-- Fewer than the four bytes of a command word: R96 knows no shorter form. -/
  | truncated
deriving DecidableEq, Repr

/-- The command of a legal opcode with the word's fields (R92, R94). -/
def commandOf (w : Word) : Except DecodeError Instr :=
  match (opcOf w).toNat with
  | 0x01 => .ok (.init (outlenOf w))
  | 0x02 => .ok (.initKey (outlenOf w) (keylenOf w))
  | 0x03 => .ok .initParam
  | 0x04 => .ok .update
  | 0x05 => .ok (.final (outlenOf w))
  | 0x06 => .ok (.hmac (outlenOf w))
  | 0x07 => .ok (.setln (lnOf w))
  | _ => .error (.illegalOpcode (opcOf w))

/-- `decode(w)` of R94: the opcode first, then that opcode's reserved bits. -/
def decodeWord (w : Word) : Except DecodeError Instr :=
  match opcodeTable.find? (fun r => r.opc == opcOf w) with
  | none => .error (.illegalOpcode (opcOf w))
  | some r =>
    if w &&& r.resvMask = 0 then commandOf w else .error (.reservedBits r.opc (w &&& r.resvMask))

/-- One command from the front of a byte string: four bytes, little-endian (R68, R90), and the bytes after them. -/
def decode : List Byte → Except DecodeError (Instr × List Byte)
  | b0 :: b1 :: b2 :: b3 :: rest => (decodeWord (wordOfBytes b0 b1 b2 b3)).map (fun i => (i, rest))
  | _ => .error .truncated

/-- What the decoder reads from a command whose bits are `w`, numbered as spec/opcode_table.json numbers them: its 32 bits laid out
as four bytes and decoded. Every command has exactly 32 bits (R90), so a number that needs more is no command. -/
def decodeTableWord (nbits w : Nat) : Option Instr :=
  if w % 2 ^ nbits < 2 ^ 32 then
    match decode (bytesOfWord (BitVec.ofNat 32 (w % 2 ^ nbits))) with
    | .ok (i, _) => some i
    | .error _ => none
  else none

/-! ## The encoder (R90) -/

/-- A length field of a command word. -/
def lengthField (n : Nat) : Byte := BitVec.ofNat 8 n

/-- Formats N, O and K of R90, bit 31 down to bit 0: `00000000 KKKKKKKK LLLLLLLL OOOOOOOO`. -/
def layoutK (keylen outlen opc : Byte) : Word := 0x00#8 ++ keylen ++ outlen ++ opc

/-- Format S of R90: `00000000 0000000N 00000000 OOOOOOOO`. -/
def layoutS (ln : Bool) (opc : Byte) : Word := 0x00#8 ++ 0x00#7 ++ BitVec.ofBool ln ++ 0x00#8 ++ opc

/-- The command word of a command (R90, R92). -/
def encode : Instr → Word
  | .init outlen => layoutK 0 (lengthField outlen) 0x01
  | .initKey outlen keylen => layoutK (lengthField keylen) (lengthField outlen) 0x02
  | .initParam => layoutK 0 0 0x03
  | .update => layoutK 0 0 0x04
  | .final outlen => layoutK 0 (lengthField outlen) 0x05
  | .hmac outlen => layoutK 0 (lengthField outlen) 0x06
  | .setln ln => layoutS ln 0x07

end Sys2Proof
end

