-- ==== Sys2Proof/Machine/State.lean ====
section
/-! DEFINITION. The state of the engine as plain data (spec 10_state.md), the host's side of its one port, and the state after
reset (R40). -/

namespace Sys2Proof.Machine

/-! ## The streaming context (R20 to R28) -/

/-- The source's "Hash State": the streaming context `ctx`, and the shape of the HMAC command's own context `p` (R29). -/
structure Ctx where
  /-- `h[0..7]`: the chaining value (R20). -/
  h : Vector Word 8
  /-- `t`: the byte counter, `T0 = t[31:0]` and `T1 = t[63:32]` (R21). -/
  t : DWord
  /-- `f0`: the first finalisation-flag word (R22). -/
  f0 : Word
  /-- `f1`: the second finalisation-flag word (R22). -/
  f1 : Word
  /-- `buf[0..63]`: the pending-input buffer (R23). -/
  buf : Vector Byte 64
  /-- `buflen`: the fill length, 0 to 64, where 64 is normal (R24, C1). -/
  buflen : Nat
  /-- `last_node` (R25). -/
  lastNode : Bool
  /-- `valid`: whether a context exists (R26). -/
  valid : Bool
deriving DecidableEq, Repr

/-- The erased context: every field zero (R28, R194). -/
def Ctx.erased : Ctx :=
  { h := Vector.replicate 8 0, t := 0, f0 := 0, f1 := 0, buf := Vector.replicate 64 0, buflen := 0, lastNode := false,
    valid := false }

/-! ## Hidden state (R29) -/

/-- The storage no host access can observe (R29). Each part is used during one command and is zero between commands. -/
structure Hidden where
  /-- `p`: the context of the HMAC command. -/
  p : Ctx
  /-- `K'`: the HMAC key block. -/
  keyBlock : Vector Byte 64
  /-- `ih`: the HMAC inner digest. -/
  innerDigest : Vector Byte 32
  /-- `kb`: the padded key block of INIT_KEY. -/
  initKeyBlock : Vector Byte 64
  /-- `v[0..15]`: the working vector of a compression. -/
  v : Vector Word 16
  /-- `m[0..15]`: the message words of a compression. -/
  m : Vector Word 16
deriving DecidableEq, Repr

/-- Every hidden store overwritten with zero (R29, R130, R156, R216). -/
def Hidden.zero : Hidden :=
  { p := Ctx.erased, keyBlock := Vector.replicate 64 0, innerDigest := Vector.replicate 32 0,
    initKeyBlock := Vector.replicate 64 0, v := Vector.replicate 16 0, m := Vector.replicate 16 0 }

/-! ## Status (R32, R230) -/

/-- The error codes of R230. Codes 7 to 255 do not exist. -/
inductive ErrCode where
  /-- E_OK, 0. -/
  | ok
  /-- E_ILLEGAL, 1: illegal command word (R231). -/
  | illegal
  /-- E_STATE, 2: no valid context (R233). -/
  | state
  /-- E_OUTLEN, 3: OUTLEN outside 1 to 32 (R234). -/
  | outlen
  /-- E_KEYLEN, 4: KEYLEN outside 1 to 32 (R236). -/
  | keylen
  /-- E_RANGE, 5: an invalid DMEM range (R235). -/
  | range
  /-- E_UNAVAIL, 6: the self-test failed (R237). -/
  | unavail
deriving DecidableEq, Repr

/-- The stored bits of STATUS (R32) and the `busy` bit of R39. ERR, CTXV and LASTNODE are mirrors and are computed
(`statusWord`). -/
structure Status where
  /-- BUSY, bit 0 (R32, R39). -/
  busy : Bool
  /-- DONE, bit 1. -/
  done : Bool
  /-- OVR, bit 3. -/
  ovr : Bool
  /-- READY, bit 4. -/
  ready : Bool
  /-- STFAIL, bit 5. -/
  stfail : Bool
  /-- ERRCODE, bits 15:8. -/
  errcode : ErrCode
deriving DecidableEq, Repr

/-! ## Local data memory (R60) -/

/-- DMEM: the bytes that hold a value, as address and byte pairs with strictly rising addresses. An unlisted address holds no
value: neither the host nor a command has written it since the last hardware reset (R263). -/
abbrev Memory := List Host.Cell

/-! ## The host's port (R16, R66, R72) -/

/-- The width of a host access. -/
inductive Width where
  /-- 8 bits. -/
  | w8
  /-- 16 bits. -/
  | w16
  /-- 32 bits. -/
  | w32
  /-- More than 32 bits, which no region takes (R67). -/
  | wider
deriving DecidableEq, Repr

/-- One MMIO access of the host, at an offset of the 64 KiB aperture (R64). A narrow write moves the low bits of `value` (R68). -/
inductive Access where
  | read (offset : BitVec 16) (width : Width)
  | write (offset : BitVec 16) (width : Width) (value : Word)
deriving DecidableEq, Repr

/-- What the outside world can do to the engine. -/
inductive Event where
  /-- The host performs an access (R16). -/
  | access (a : Access)
  /-- The hardware reset is asserted (R260). -/
  | hardwareReset
deriving DecidableEq, Repr

/-- One event that is still to come, in the host's program order (R72 item 1). -/
structure Input where
  event : Event
  /-- The interleaving of R72: when the engine has a step to take, whether the event falls before that step, while BUSY = 1, or
  after it. Both are possible, and the state says which (log entry 4). -/
  duringBusy : Bool
deriving DecidableEq, Repr

/-! ## Stops -/

/-- Why a step stops. The engine has no trap and no halt (R238): a command always ends in a next state. -/
inductive Fault where
  /-- Raised by a host access that R66 does not accept: misaligned, of a width its region does not take, or wider than 32 bits. The
  spec has a model treat it as a host fault (R67, U15). Safe: the engine would go on unchanged, and the model makes no claim of the
  host's run after it. -/
  | busError (a : Access)
deriving DecidableEq, Repr

/-- Why an instruction has no meaning. Every command of this engine has one, so no arm raises it. -/
inductive Refusal where
  /-- Raised by an arm of `exec` for an instruction that is not modelled yet; none is left. Safe. -/
  | notModelled (mnemonic : String)
deriving DecidableEq, Repr

/-! ## The machine -/

/-- The whole machine: the build's parameters, the engine, its DMEM and the host's side of the port. -/
structure State where
  /-- The build's parameters, which no step changes (R9). -/
  cfg : Config
  /-- The streaming context (R20 to R28). -/
  ctx : Ctx
  /-- The hidden stores (R29). -/
  hidden : Hidden
  /-- ARG0 to ARG4 (R34). -/
  args : Vector Word 5
  /-- CTRL.IE (R31). -/
  ie : Bool
  /-- STATUS and `busy` (R32, R39). -/
  status : Status
  /-- `pcmd`: the latched command word (R33, R39). -/
  pcmd : Word
  /-- DMEM (R60). -/
  mem : Memory
  /-- The model's own: how many hardware resets there have been. It names the free contents of DMEM (log entry 2). -/
  epoch : Nat
  /-- The model's own: how many self-tests have run. It numbers the draws of `SELFTEST_FAIL` (log entry 3). -/
  selfTests : Nat
  /-- The model's own: the host's accesses and resets still to come (log entry 4). -/
  inputs : List Input
  /-- The model's own: the data the bus returned for the last host read, `none` before the first (log entry 5). -/
  rdata : Option Word
deriving DecidableEq, Repr

/-- STATUS after a reset: BUSY while the self-test is still to come, READY when there is none (R40, R266). -/
def Status.afterReset (cfg : Config) : Status :=
  { busy := cfg.selftestPresent, done := false, ovr := false, ready := !cfg.selftestPresent, stfail := false, errcode := .ok }

/-- The engine's fields at their reset values (R40, R260, R266), for a build, on the host's side of the port as given. -/
def State.ofReset (cfg : Config) (mem : Memory) (epoch selfTests : Nat) (inputs : List Input) (rdata : Option Word) : State :=
  { cfg := cfg
    ctx := Ctx.erased
    hidden := Hidden.zero
    args := Vector.replicate 5 0
    ie := false
    status := Status.afterReset cfg
    pcmd := 0
    mem := mem
    epoch := epoch
    selfTests := selfTests
    inputs := inputs
    rdata := rdata }

/-- The machine right after hardware reset, in any build: no DMEM byte holds a value (R263) and no access is pending. -/
def State.resetOf (cfg : Config) : State := State.ofReset cfg [] 0 0 [] none

/-- The machine right after hardware reset, in the build of the spec's default parameters (R9, R40). -/
def State.reset : State := State.resetOf Config.default

end Sys2Proof.Machine
end

