-- ==== Sys2Proof/Machine/Operands.lean ====
section
/-! DEFINITION. Operands of the commands (spec 00_scope.md R11, 20_memory.md R62, 30_encoding.md R93): the five operand registers,
the ranges they name, the length checks, and the little-endian view of byte strings. -/

namespace Sys2Proof.Machine

/-! ## Operand registers (R34, R93) -/

/-- `ARG[i]` (R12). -/
def State.arg (s : State) (i : Fin 5) : Word := s.args[i]

/-- `ARG[i]` as an unsigned byte offset or byte count (R91). -/
def State.argNat (s : State) (i : Fin 5) : Nat := (s.arg i).toNat

/-! ## Checks on operands -/

/-- `valid_range(a, n)`: empty, or inside DMEM, with the sum in unbounded integers (R62). -/
def validRange (dmemSize a n : Nat) : Bool := n == 0 || decide (a + n ≤ dmemSize)

/-- OUTLEN and KEYLEN are legal from 1 to 32 (R234, R236). -/
def legalLength (n : Nat) : Bool := decide (1 ≤ n) && decide (n ≤ 32)

/-! ## Byte strings (R10, R11) -/

/-- `0^n`. -/
def zeros (n : Nat) : List Byte := List.replicate n 0

/-- Byte `i` of a string, zero past its end. -/
def byteAt (b : List Byte) (i : Nat) : Byte := b.getD i 0

/-- `LE32(b, i)` (R11). -/
def le32 (b : List Byte) (i : Nat) : Word :=
  wordOfBytes (byteAt b i) (byteAt b (i + 1)) (byteAt b (i + 2)) (byteAt b (i + 3))

/-- `LE32BYTES(w[0]) ‖ LE32BYTES(w[1]) ‖ ...` (R11, R194). -/
def leBytes (ws : List Word) : List Byte := ws.flatMap bytesOfWord

/-- Every byte of a string exclusive-or one pad byte (R212, R213). -/
def xorPad (b : List Byte) (pad : Byte) : List Byte := b.map (fun x => x ^^^ pad)

end Sys2Proof.Machine
end

