-- ==== Sys2Proof/Machine/Flags.lean ====
section
/-! DEFINITION. The status flags of the engine (spec 10_state.md R31, R32, R37, R38) and the order of the checks that set ERRCODE
(60_exceptions.md R230, R240). The engine has no arithmetic condition codes. -/

namespace Sys2Proof.Machine

/-- The code of STATUS.ERRCODE (R230). -/
def ErrCode.code : ErrCode → Byte
  | .ok => 0
  | .illegal => 1
  | .state => 2
  | .outlen => 3
  | .keylen => 4
  | .range => 5
  | .unavail => 6

/-- The position of a check in the order of R240; E_OK is no check. -/
def ErrCode.priority : ErrCode → Nat
  | .ok => 0
  | .unavail => 1
  | .illegal => 2
  | .state => 3
  | .outlen => 4
  | .keylen => 5
  | .range => 6

/-- One bit of a register at its position. -/
def bitAt (b : Bool) (pos : Nat) : Word := (BitVec.ofBool b).setWidth 32 <<< pos

/-- STATUS as the host reads it (R32). ERR equals `ERRCODE != 0`, and CTXV and LASTNODE mirror the context. -/
def State.statusWord (s : State) : Word :=
  bitAt s.status.busy 0 ||| bitAt s.status.done 1 ||| bitAt (s.status.errcode != .ok) 2 ||| bitAt s.status.ovr 3 |||
    bitAt s.status.ready 4 ||| bitAt s.status.stfail 5 ||| bitAt s.ctx.valid 6 ||| bitAt s.ctx.lastNode 7 |||
    (s.status.errcode.code.setWidth 32 <<< 8)

/-- CTRL as the host reads it: IE in bit 0, and SRST reads 0 (R31). -/
def State.ctrlWord (s : State) : Word := bitAt s.ie 0

/-- The interrupt output: `IRQ = STATUS.DONE & CTRL.IE`, a level (R38, R241). -/
def State.irq (s : State) : Bool := s.status.done && s.ie

/-- The self-test step is still to come: STATUS reads BUSY = 1, READY = 0, STFAIL = 0 (R266). -/
def Status.selfTestPending (st : Status) : Bool := st.busy && !st.ready && !st.stfail

/-- The first failing check of a list in check order, E_OK if none fails (R240, R232). Each check is its error code and whether it
passes. -/
def firstFailing : List (ErrCode × Bool) → ErrCode
  | [] => .ok
  | (e, passes) :: rest => if passes then firstFailing rest else e

/-- The checks of one command: E_UNAVAIL comes first for every command (R237, R240). -/
def State.checkAll (s : State) (checks : List (ErrCode × Bool)) : ErrCode :=
  firstFailing ((.unavail, !s.status.stfail) :: checks)

/-- STATUS when a command is accepted: BUSY to 1, DONE to 0 and ERRCODE to 0 (R33). -/
def Status.accepted (st : Status) : Status := { st with busy := true, done := false, errcode := .ok }

/-- STATUS when a command completes with code `e` (R232). -/
def Status.completed (st : Status) (e : ErrCode) : Status := { st with busy := false, done := true, errcode := e }

/-- STATUS when a host write is dropped (R271). -/
def Status.overrun (st : Status) : Status := { st with ovr := true }

/-- STATUS after the host writes `v` to it: bit 1 clears DONE, bit 3 clears OVR, and nothing else changes (R32). -/
def Status.acknowledge (st : Status) (v : Word) : Status :=
  { st with done := st.done && !v.getLsbD 1, ovr := st.ovr && !v.getLsbD 3 }

/-- STATUS when the self-test completes (R266). DONE is not set. -/
def Status.selfTested (st : Status) (mismatch : Bool) : Status :=
  { st with busy := false, ready := !mismatch, stfail := mismatch }

end Sys2Proof.Machine
end

