-- ==== Sys2Proof/Machine/Ops.lean ====
section
/-! DEFINITION. The named operations over DMEM and the register file, the completion of a command (the engine's only "trap entry",
spec 60_exceptions.md R232, R238), its acceptance and the host's acknowledgement, and the two resets. -/

namespace Sys2Proof.Machine

/-! ## DMEM bytes (R60, R63, R263) -/

/-- The byte a memory holds at an address, `none` where it holds no value (R263). -/
def Memory.read? : Memory → Nat → Option Byte
  | [], _ => none
  | (k, v) :: m, a => if a = k then some v else Memory.read? m a

/-- Store one byte. The list stays in canonical form. -/
def Memory.write : Memory → Nat → Byte → Memory
  | [], a, b => [(a, b)]
  | (k, v) :: m, a, b =>
    if a < k then (a, b) :: (k, v) :: m
    else if a = k then (a, b) :: m
    else (k, v) :: Memory.write m a b

/-- Store a byte string at rising addresses (R63). -/
def Memory.writeBytes : Memory → Nat → List Byte → Memory
  | m, _, [] => m
  | m, a, b :: bs => Memory.writeBytes (Memory.write m a b) (a + 1) bs

/-- The canonical form: addresses strictly rise. An unlisted address holds no value, so no entry repeats what it would read. -/
def Memory.wf : Memory → Bool
  | [] => true
  | [_] => true
  | (k, _) :: (k', v') :: m => decide (k < k') && Memory.wf ((k', v') :: m)

/-- Every byte that holds a value is a byte of DMEM (R60). -/
def Memory.within (m : Memory) (size : Nat) : Bool := m.all (fun c => decide (c.1 < size))

/-- One byte of DMEM as a command or the host reads it. A byte that holds no value reads as the free contents DMEM came out of
hardware reset with (R263, log entry 2). -/
def State.dmemByte (s : State) (a : Nat) : Byte := (Memory.read? s.mem a).getD (Config.dmemAtReset s.epoch a)

/-- `MemRead(a, n)`: n bytes in rising address order (R12, R63). -/
def State.memRead (s : State) : Nat → Nat → List Byte
  | _, 0 => []
  | a, n + 1 => s.dmemByte a :: s.memRead (a + 1) n

/-- `MemWrite(a, n, b)`, with `n` the length of `b` (R12). -/
def State.memWrite (s : State) (a : Nat) (b : List Byte) : State := { s with mem := Memory.writeBytes s.mem a b }

/-! ## Commands: acceptance and completion -/

/-- An accepted write of the word `w` to CMD: it is latched in `pcmd`, BUSY rises, DONE and ERRCODE clear (R33). -/
def State.acceptCommand (s : State) (w : Word) : State := { s with pcmd := w, status := s.status.accepted }

/-- A host write dropped because BUSY = 1 (R271). -/
def State.dropWrite (s : State) : State := { s with status := s.status.overrun }

/-- A host write of `v` to STATUS. Clearing DONE is the return from a completion (R32, R238). -/
def State.acknowledge (s : State) (v : Word) : State := { s with status := s.status.acknowledge v }

/-- Completion with code `e`: the STATUS update of R232, which is all the "trap entry" the engine has (R238). The mirrors CTXV and
LASTNODE follow the context. -/
def State.complete (s : State) (e : ErrCode) : State := { s with status := s.status.completed e }

/-- One whole command (R232): take the first failing check, perform the effect if none fails, then complete. With an error the
context, the hidden stores, DMEM and the ARG registers are as they were. -/
def State.runCommand (s : State) (checks : List (ErrCode × Bool)) (effect : State → State) : State :=
  let e := s.checkAll checks
  (if e = .ok then effect s else s).complete e

/-- The completion of a word that is no command: E_ILLEGAL, after E_UNAVAIL (R95, R231, R240). -/
def State.runIllegal (s : State) : State := s.runCommand [(.illegal, false)] id

/-- The command the latched word stands for; decoding runs at the completion step (R94). -/
def State.fetch (s : State) : Except DecodeError Instr := decodeWord s.pcmd

/-! ## Hidden stores (R130) -/

/-- The working vector and the message words of a compression, overwritten with zero (R130). -/
def Hidden.eraseWork (d : Hidden) : Hidden := { d with v := Vector.replicate 16 0, m := Vector.replicate 16 0 }

/-! ## Resets and the self-test (R260 to R266) -/

/-- Hardware reset: every field to the table of R40, and no byte of DMEM holds a value (R260, R262, R263). -/
def State.hardwareReset (s : State) : State := State.ofReset s.cfg [] (s.epoch + 1) s.selfTests s.inputs s.rdata

/-- Soft reset: as a hardware reset, but DMEM keeps its contents and CTRL.IE is what the same write put there (R264). -/
def State.softReset (s : State) : State :=
  { State.ofReset s.cfg s.mem s.epoch s.selfTests s.inputs s.rdata with ie := s.ie }

/-- The self-test step: its outcome is a free draw, and nothing but STATUS changes (R266). -/
def State.selfTest (s : State) : State :=
  { s with status := s.status.selfTested (Config.selftestFail s.selfTests), selfTests := s.selfTests + 1 }

end Sys2Proof.Machine
end

