-- ==== Sys2Proof/Machine/Bus.lean ====
section
/-! DEFINITION. The host's side of the interface (spec 20_memory.md R64 to R71, 10_state.md section 3, 70_reset_and_hazards.md R271 and
R272): the registers of the aperture, the DMEM window, and what one access or one reset does. -/

namespace Sys2Proof.Machine

/-! ## The address map (R65) -/

/-- The registers of the aperture. -/
inductive Reg where
  | id
  | ctrl
  | status
  | cmd
  | arg (i : Fin 5)
  | h (i : Fin 8)
  | t0
  | t1
  | f0
  | f1
  | buflen
  | buf (j : Fin 16)
deriving DecidableEq, Repr

/-- The offset of a register (R30 to R35, R65). -/
def Reg.offset : Reg → Nat
  | .id => 0x000
  | .ctrl => 0x004
  | .status => 0x008
  | .cmd => 0x00C
  | .arg i => 0x010 + 4 * i.val
  | .h i => 0x040 + 4 * i.val
  | .t0 => 0x060
  | .t1 => 0x064
  | .f0 => 0x068
  | .f1 => 0x06C
  | .buflen => 0x070
  | .buf j => 0x080 + 4 * j.val

/-- Every register, in offset order. -/
def registers : List Reg :=
  [.id, .ctrl, .status, .cmd] ++ (List.finRange 5).map .arg ++ (List.finRange 8).map .h ++ [.t0, .t1, .f0, .f1, .buflen] ++
    (List.finRange 16).map .buf

/-- The register at an offset, `none` at a reserved one (R65). -/
def regAt (off : Nat) : Option Reg := registers.find? (fun r => r.offset == off)

/-- Where the register region ends and the DMEM window begins (R65). -/
def windowBase : Nat := 0x1000

/-- The regions of the aperture (R65). -/
inductive Region where
  | registers
  /-- The DMEM window, with the DMEM address the offset names. -/
  | dmem (a : Nat)
  | unmapped
deriving DecidableEq, Repr

/-- The region of an offset, in a build with `dmemSize` bytes of DMEM (R65). -/
def regionOf (dmemSize off : Nat) : Region :=
  if off < windowBase then .registers
  else if off < windowBase + dmemSize then .dmem (off - windowBase)
  else .unmapped

/-- The bytes an access moves. -/
def Width.bytes : Width → Nat
  | .w8 => 1
  | .w16 => 2
  | .w32 => 4
  | .wider => 8

/-- The accesses the interface takes: in the register region 32 bits at a multiple of 4, elsewhere 8 bits, aligned 16 bits and aligned
32 bits (R66). -/
def acceptsAccess (off : Nat) (w : Width) : Bool :=
  if off < windowBase then w == .w32 && off % 4 == 0
  else
    match w with
    | .w8 => true
    | .w16 => off % 2 == 0
    | .w32 => off % 4 == 0
    | .wider => false

/-! ## Reads (R71, R272) -/

/-- The identification word (R30). -/
def idWord : Word := 0x42325301

/-- A state-view register: the context while idle, 0 while BUSY = 1 (R35, R272). -/
def State.view (s : State) (w : Word) : Word := if s.status.busy then 0 else w

/-- A 32-bit register as the host reads it (R30 to R35, R272). -/
def State.readReg (s : State) : Reg → Word
  | .id => idWord
  | .ctrl => s.ctrlWord
  | .status => s.statusWord
  | .cmd => 0
  | .arg i => s.arg i
  | .h i => s.view s.ctx.h[i]
  | .t0 => s.view (s.ctx.t.extractLsb' 0 32)
  | .t1 => s.view (s.ctx.t.extractLsb' 32 32)
  | .f0 => s.view s.ctx.f0
  | .f1 => s.view s.ctx.f1
  | .buflen => s.view (BitVec.ofNat 32 s.ctx.buflen)
  | .buf j => s.view (le32 s.ctx.buf.toList (4 * j.val))

/-- The data of an accepted read (R65, R68). A narrow read moves its bytes from bit 0 up; the bits above them are zero. -/
def State.busRead (s : State) (off : Nat) (w : Width) : Word :=
  match regionOf s.cfg.dmemSize off with
  | .registers => ((regAt off).map s.readReg).getD 0
  | .dmem a => if s.status.busy then 0 else le32 (s.memRead a w.bytes) 0
  | .unmapped => 0

/-! ## Writes (R71, R271) -/

/-- A write to CTRL: IE always takes the written bit; SRST resets the engine, or is dropped while BUSY = 1 (R31, R264, R271). -/
def State.writeCtrl (s : State) (v : Word) : State :=
  let s := { s with ie := v.getLsbD 0 }
  if v.getLsbD 1 then (if s.status.busy then s.dropWrite else s.softReset) else s

/-- A 32-bit write to a register (R30 to R35, R271). -/
def State.writeReg (s : State) (r : Reg) (v : Word) : State :=
  match r with
  | .ctrl => s.writeCtrl v
  | .status => s.acknowledge v
  | .cmd => if s.status.busy then s.dropWrite else s.acceptCommand v
  | .arg i => if s.status.busy then s.dropWrite else { s with args := s.args.set i v }
  | .id => s
  | .h _ => s
  | .t0 => s
  | .t1 => s
  | .f0 => s
  | .f1 => s
  | .buflen => s
  | .buf _ => s

/-- The effect of an accepted write (R65, R68, R71, R271). -/
def State.busWrite (s : State) (off : Nat) (w : Width) (v : Word) : State :=
  match regionOf s.cfg.dmemSize off with
  | .registers =>
    match regAt off with
    | some r => s.writeReg r v
    | none => s
  | .dmem a => if s.status.busy then s.dropWrite else s.memWrite a ((bytesOfWord v).take w.bytes)
  | .unmapped => s

/-! ## One event -/

/-- One access of the host: a bus error where R66 does not accept it (R67), else its data or its effect. -/
def State.access (s : State) (a : Access) : Host.Outcome State Fault Refusal :=
  match a with
  | .read off w =>
    if acceptsAccess off.toNat w then .next { s with rdata := some (s.busRead off.toNat w) } else .fault (.busError a)
  | .write off w v => if acceptsAccess off.toNat w then .next (s.busWrite off.toNat w v) else .fault (.busError a)

/-- One event of the outside world. -/
def State.event (s : State) : Event → Host.Outcome State Fault Refusal
  | .access a => s.access a
  | .hardwareReset => .next s.hardwareReset

/-- The engine has a step to take, and the interleaving lets it take it now: no event is pending, or the next one falls after the
step (R72). -/
def State.engineTurn (s : State) : Bool :=
  s.status.busy &&
    match s.inputs with
    | [] => true
    | i :: _ => !i.duringBusy

end Sys2Proof.Machine
end

