-- ==== Sys2Proof/Machine/Compress.lean ====
section
/-! DEFINITION. The compression core (spec 40_compression.md): the internal operation every hashing command uses. One function stands
for every datapath an implementation may hold (R131). -/

namespace Sys2Proof.Machine

/-- `IV[0..7]` (R121). -/
def iv : Vector Word 8 :=
  #v[0x6A09E667, 0xBB67AE85, 0x3C6EF372, 0xA54FF53A, 0x510E527F, 0x9B05688C, 0x1F83D9AB, 0x5BE0CD19]

/-- The rows of `SIGMA`, round 0 first (R122). -/
def sigma : List (Vector (Fin 16) 16) :=
  [ #v[0, 1, 2, 3, 4, 5, 6, 7, 8, 9, 10, 11, 12, 13, 14, 15],
    #v[14, 10, 4, 8, 9, 15, 13, 6, 1, 12, 0, 2, 11, 7, 5, 3],
    #v[11, 8, 12, 0, 5, 2, 15, 13, 10, 14, 3, 6, 7, 1, 9, 4],
    #v[7, 9, 3, 1, 13, 12, 11, 14, 2, 6, 5, 10, 4, 0, 15, 8],
    #v[9, 0, 5, 7, 2, 4, 10, 15, 14, 1, 11, 12, 6, 8, 3, 13],
    #v[2, 12, 6, 10, 0, 11, 8, 3, 4, 13, 7, 5, 15, 14, 1, 9],
    #v[12, 5, 1, 15, 14, 13, 4, 10, 0, 7, 6, 3, 9, 2, 8, 11],
    #v[13, 11, 7, 14, 12, 1, 3, 9, 5, 0, 15, 4, 8, 6, 2, 10],
    #v[6, 15, 14, 9, 11, 3, 0, 8, 12, 2, 13, 7, 1, 4, 10, 5],
    #v[10, 2, 8, 4, 7, 6, 1, 5, 15, 11, 9, 14, 3, 12, 13, 0] ]

/-- One add-rotate-xor pass of `G` over four words of `v`, with its message word and its two rotations (R123). -/
def mixPass (v : Vector Word 16) (a b c d : Fin 16) (x : Word) (r1 r2 : Nat) : Vector Word 16 :=
  let v := v.set a (v[a] + v[b] + x)
  let v := v.set d ((v[d] ^^^ v[a]).rotateRight r1)
  let v := v.set c (v[c] + v[d])
  v.set b ((v[b] ^^^ v[c]).rotateRight r2)

/-- `G(v, a, b, c, d, x, y)`: two passes, with rotations 16 and 12, then 8 and 7 (R123). -/
def mixG (v : Vector Word 16) (a b c d : Fin 16) (x y : Word) : Vector Word 16 :=
  mixPass (mixPass v a b c d x 16 12) a b c d y 8 7

/-- `ROUND(v, m, r)` with `s = SIGMA[r]`: four calls on the columns, then four on the diagonals (R124). -/
def mixRound (m v : Vector Word 16) (s : Vector (Fin 16) 16) : Vector Word 16 :=
  let v := mixG v 0 4 8 12 m[s[0]] m[s[1]]
  let v := mixG v 1 5 9 13 m[s[2]] m[s[3]]
  let v := mixG v 2 6 10 14 m[s[4]] m[s[5]]
  let v := mixG v 3 7 11 15 m[s[6]] m[s[7]]
  let v := mixG v 0 5 10 15 m[s[8]] m[s[9]]
  let v := mixG v 1 6 11 12 m[s[10]] m[s[11]]
  let v := mixG v 2 7 8 13 m[s[12]] m[s[13]]
  mixG v 3 4 9 14 m[s[14]] m[s[15]]

/-- `m[i] = LE32(block, 4*i)` (R128). -/
def messageWords (block : List Byte) : Vector Word 16 := Vector.ofFn fun i => le32 block (4 * i.val)

/-- The working vector a compression starts from: the chaining value, then the IV under the counter and the flags (R126, R128). -/
def workVector (h : Vector Word 8) (t : DWord) (f0 f1 : Word) : Vector Word 16 :=
  #v[h[0], h[1], h[2], h[3], h[4], h[5], h[6], h[7], iv[0], iv[1], iv[2], iv[3],
     iv[4] ^^^ t.extractLsb' 0 32, iv[5] ^^^ t.extractLsb' 32 32, iv[6] ^^^ f0, iv[7] ^^^ f1]

/-- `h[i] ^ v[i] ^ v[i+8]` (R129). -/
def fold (h : Vector Word 8) (v : Vector Word 16) : Vector Word 8 :=
  Vector.ofFn fun i : Fin 8 => h[i] ^^^ v[i.val]'(by omega) ^^^ v[i.val + 8]'(by omega)

/-- The counter after an increment, modulo 2^64 (R127). -/
def addBytes (t : DWord) (inc : Nat) : DWord := t + BitVec.ofNat 64 inc

/-- The chaining value after one block: a function of the chaining value, the counter after its increment, the flag words and the
block alone (R126, R133). -/
@[irreducible] def compressH (h : Vector Word 8) (t : DWord) (f0 f1 : Word) (block : List Byte) : Vector Word 8 :=
  fold h (sigma.foldl (mixRound (messageWords block)) (workVector h t f0 f1))

/-- `COMPRESS1(c, block, inc)`: it writes `h` and `t` and nothing else of the context (R126). -/
def compress1 (c : Ctx) (block : List Byte) (inc : Nat) : Ctx :=
  { c with t := addBytes c.t inc, h := compressH c.h (addBytes c.t inc) c.f0 c.f1 block }

/-- `COMPRESS(c, src, nblocks, inc)`: the blocks of `src` in address order (R125). -/
def compress (c : Ctx) (src : List Byte) : Nat → Nat → Ctx
  | 0, _ => c
  | n + 1, inc => compress (compress1 c (src.take 64) inc) (src.drop 64) n inc

end Sys2Proof.Machine
end

