-- ==== Sys2Proof/Machine/Context.lean ====
section
/-! DEFINITION. The operations on a context that the commands share: `PINIT` (spec 41_init.md R153), `UPD` (42_update.md R171) and
`FIN` (43_final.md R195). -/

namespace Sys2Proof.Machine

/-! ## Initialisation (R151 to R154) -/

/-- The fields of a parameter block (R151). Only the bytes of a block reach the engine, and it checks none of them (R158). -/
structure ParamBlock where
  digestLength : Byte
  keyLength : Byte
  fanout : Byte
  depth : Byte
  leafLength : Word
  nodeOffset : Word
  xofLength : BitVec 16
  nodeDepth : Byte
  innerLength : Byte
  salt : Vector Byte 8
  personalization : Vector Byte 8
deriving DecidableEq, Repr

/-- The 32 bytes of a parameter block, in the field order of R151. -/
def ParamBlock.bytes (p : ParamBlock) : List Byte :=
  [p.digestLength, p.keyLength, p.fanout, p.depth] ++ bytesOfWord p.leafLength ++ bytesOfWord p.nodeOffset ++
    [p.xofLength.extractLsb' 0 8, p.xofLength.extractLsb' 8 8, p.nodeDepth, p.innerLength] ++ p.salt.toList ++
    p.personalization.toList

/-- The block of the sequential hash: fanout 1, depth 1, every other field zero (R154, R158). -/
def ParamBlock.sequential (outlen keylen : Byte) : ParamBlock :=
  { digestLength := outlen, keyLength := keylen, fanout := 1, depth := 1, leafLength := 0, nodeOffset := 0, xofLength := 0,
    nodeDepth := 0, innerLength := 0, salt := Vector.replicate 8 0, personalization := Vector.replicate 8 0 }

/-- `PARAM(outlen, keylen)`: digest length, key length, fanout 1, depth 1 and 28 zero bytes (R154). -/
def param (outlen keylen : Nat) : List Byte := [BitVec.ofNat 8 outlen, BitVec.ofNat 8 keylen, 0x01, 0x01] ++ zeros 28

/-- `PINIT(c, P)`: it writes every field, so the old context does not enter (R153, R157). -/
def pinit (P : List Byte) : Ctx :=
  { h := Vector.ofFn fun i => iv[i] ^^^ le32 P (4 * i.val)
    t := 0, f0 := 0, f1 := 0
    buf := Vector.replicate 64 0, buflen := 0, lastNode := false
    valid := true }

/-! ## Streaming update (R171 to R176) -/

/-- `buf[off .. off + len) <- data`, the rest of the buffer as it was. -/
def putBytes (buf : Vector Byte 64) (off : Nat) (data : List Byte) : Vector Byte 64 :=
  Vector.ofFn fun k => if off ≤ k.val ∧ k.val < off + data.length then byteAt data (k.val - off) else buf[k]

/-- Step (1) of R171: if the data exceeds the free space, top the buffer off, compress it and clear it (R173). What is left of the
data comes back with the context. -/
def topOff (c : Ctx) (data : List Byte) : Ctx × List Byte :=
  let space := 64 - c.buflen
  if data.length > space then
    let c := { c with buf := putBytes c.buf c.buflen (data.take space) }
    let c := compress c c.buf.toList 1 64
    ({ c with buf := Vector.replicate 64 0, buflen := 0 }, data.drop space)
  else (c, data)

/-- Step (2) of R171: compress every complete block of the data except the last one (R172). -/
def bulk (c : Ctx) (data : List Byte) : Ctx × List Byte :=
  if data.length > 64 then
    let nb := (data.length + 63) / 64
    (compress c data (nb - 1) 64, data.drop (64 * (nb - 1)))
  else (c, data)

/-- Step (3) of R171: copy what remains into the buffer. -/
def keep (c : Ctx) (data : List Byte) : Ctx :=
  { c with buf := putBytes c.buf c.buflen data, buflen := c.buflen + data.length }

/-- `UPD(c, data, n)` with `n` the length of `data` (R171). Empty data writes nothing (R175). -/
def upd (c : Ctx) (data : List Byte) : Ctx :=
  if data.length = 0 then c
  else
    let r := topOff c data
    let r := bulk r.1 r.2
    keep r.1 r.2

/-- How many times `UPD` of `n` bytes at buffer length `b` runs `COMPRESS1` (R278). -/
def updCompressions (b n : Nat) : Nat := if n ≤ 64 - b then 0 else 1 + (n - (64 - b) - 1) / 64

/-! ## Finalisation (R191 to R195) -/

/-- The flag words of the last block: `f0` always, `f1` when the last-node flag is set (R191, C2). -/
def setFinalFlags (c : Ctx) : Ctx :=
  { c with f0 := 0xFFFFFFFF, f1 := if c.lastNode then 0xFFFFFFFF else c.f1 }

/-- `buf[buflen .. 64) <- 0` (R192). -/
def padBuffer (c : Ctx) : Ctx := { c with buf := putBytes c.buf c.buflen (zeros (64 - c.buflen)) }

/-- The digest: the first `outlen` bytes of the chaining value, little-endian (R194). -/
def digest (c : Ctx) (outlen : Nat) : List Byte := (leBytes c.h.toList).take outlen

/-- The context `FIN` takes the digest from: the flags set, the buffer padded and compressed with its own length as increment
(R191 to R193). -/
def finBlock (c : Ctx) : Ctx :=
  let c := padBuffer (setFinalFlags c)
  compress c c.buf.toList 1 c.buflen

/-- `FIN(c, outlen)`: the erased context and the digest (R195). -/
def fin (c : Ctx) (outlen : Nat) : Ctx × List Byte := (Ctx.erased, digest (finBlock c) outlen)

end Sys2Proof.Machine
end

