-- ==== Sys2Proof/Machine/Final.lean ====
section
/-! DEFINITION. The FINAL and SETLN commands (spec 43_final.md). -/

namespace Sys2Proof.Machine

/-- FINAL (R190): the digest goes to DMEM and the context is erased. On any error the context is neither finalised nor erased. -/
def execFinal (outlen : Nat) (s : State) : Host.Outcome State Fault Refusal :=
  .next (s.runCommand
    [(.state, s.ctx.valid), (.outlen, legalLength outlen),
     (.range, validRange s.cfg.dmemSize (s.argNat 0) outlen)]
    fun s =>
      let r := fin s.ctx outlen
      { s.memWrite (s.argNat 0) r.2 with ctx := r.1, hidden := s.hidden.eraseWork })

/-- SETLN (R196). -/
def execSetln (ln : Bool) (s : State) : Host.Outcome State Fault Refusal :=
  .next (s.runCommand [(.state, s.ctx.valid)] fun s => { s with ctx := { s.ctx with lastNode := ln } })

end Sys2Proof.Machine
end

