-- ==== Sys2Proof/Machine/Hmac.lean ====
section
/-! DEFINITION. The HMAC command (spec 44_hmac.md). It runs in the hidden context `p` and neither reads nor writes the streaming
context (R217). -/

namespace Sys2Proof.Machine

/-- `KBLOCK(key, kl)`: a key longer than a block is hashed first, a shorter one is used verbatim; both are zero-padded to 64 bytes
(R211). -/
def kblock (key : List Byte) : List Byte :=
  if key.length > 64 then (fin (upd (pinit (param 32 0)) key) 32).2 ++ zeros 32
  else key ++ zeros (64 - key.length)

/-- One pass of the construction: a fresh context takes the padded key block, then the text, and is finalised to 32 bytes. -/
def hmacPass (keyBlock : List Byte) (pad : Byte) (text : List Byte) : Ctx × List Byte :=
  fin (upd (upd (pinit (param 32 0)) (xorPad keyBlock pad)) text) 32

/-- The inner pass over the message, with pad 0x36 (R212). -/
def innerPass (keyBlock msg : List Byte) : Ctx × List Byte := hmacPass keyBlock 0x36 msg

/-- The outer pass over the inner digest, with pad 0x5c (R213). -/
def outerPass (keyBlock ih : List Byte) : Ctx × List Byte := hmacPass keyBlock 0x5c ih

/-- The context `p` and the outer digest `oh` after both passes (R210). -/
def hmacRun (key msg : List Byte) : Ctx × List Byte :=
  let k := kblock key
  outerPass k (innerPass k msg).2

/-- What HMAC leaves in the hidden stores it used: `p` as the last `FIN` left it, and zero in the rest (R216, R130). -/
def Hidden.afterHmac (d : Hidden) (p : Ctx) : Hidden :=
  { d.eraseWork with p := p, keyBlock := Vector.replicate 64 0, innerDigest := Vector.replicate 32 0 }

/-- HMAC (R210): the first OUTLEN bytes of the outer digest go to DMEM (R214). -/
def execHmac (outlen : Nat) (s : State) : Host.Outcome State Fault Refusal :=
  .next (s.runCommand
    [(.outlen, legalLength outlen),
     (.range, validRange s.cfg.dmemSize (s.argNat 0) (s.argNat 1) && validRange s.cfg.dmemSize (s.argNat 2) (s.argNat 3) &&
       validRange s.cfg.dmemSize (s.argNat 4) outlen)]
    fun s =>
      let r := hmacRun (s.memRead (s.argNat 2) (s.argNat 3)) (s.memRead (s.argNat 0) (s.argNat 1))
      { s.memWrite (s.argNat 4) (r.2.take outlen) with hidden := s.hidden.afterHmac r.1 })

end Sys2Proof.Machine
end

