-- ==== Sys2Proof/Machine/Init.lean ====
section
/-! DEFINITION. The commands that create a streaming context: INIT, INIT_PARAM and INIT_KEY (spec 41_init.md). -/

namespace Sys2Proof.Machine

/-- INIT (R150). -/
def execInit (outlen : Nat) (s : State) : Host.Outcome State Fault Refusal :=
  .next (s.runCommand [(.outlen, legalLength outlen)] fun s => { s with ctx := pinit (param outlen 0) })

/-- INIT_PARAM (R152). The fields of the block are not checked (R158). -/
def execInitParam (s : State) : Host.Outcome State Fault Refusal :=
  .next (s.runCommand [(.range, validRange s.cfg.dmemSize (s.argNat 0) 32)] fun s =>
    { s with ctx := pinit (s.memRead (s.argNat 0) 32) })

/-- The padded key block `kb` of INIT_KEY: the key and zeros up to 64 bytes (R155). -/
def paddedKey (key : List Byte) : List Byte := key ++ zeros (64 - key.length)

/-- INIT_KEY (R155). Its key block store is zero when it completes (R156). -/
def execInitKey (outlen keylen : Nat) (s : State) : Host.Outcome State Fault Refusal :=
  .next (s.runCommand
    [(.outlen, legalLength outlen), (.keylen, legalLength keylen),
     (.range, validRange s.cfg.dmemSize (s.argNat 0) keylen)]
    fun s =>
      { s with
        ctx := upd (pinit (param outlen keylen)) (paddedKey (s.memRead (s.argNat 0) keylen))
        hidden := { s.hidden with initKeyBlock := Vector.replicate 64 0 } })

end Sys2Proof.Machine
end

