-- ==== Sys2Proof/Machine/Update.lean ====
section
/-! DEFINITION. The UPDATE command (spec 42_update.md). -/

namespace Sys2Proof.Machine

/-- UPDATE (R170). When it compresses, it leaves the working stores of the compression at zero (R130). -/
def execUpdate (s : State) : Host.Outcome State Fault Refusal :=
  .next (s.runCommand
    [(.state, s.ctx.valid), (.range, validRange s.cfg.dmemSize (s.argNat 0) (s.argNat 1))]
    fun s =>
      { s with
        ctx := upd s.ctx (s.memRead (s.argNat 0) (s.argNat 1))
        hidden := if updCompressions s.ctx.buflen (s.argNat 1) = 0 then s.hidden else s.hidden.eraseWork })

end Sys2Proof.Machine
end

