-- ==== Sys2Proof/Machine/Dispatch.lean ====
section
/-! DEFINITION. One arm per command: each calls the meaning of its own (spec 30_encoding.md R92). -/

namespace Sys2Proof.Machine

def exec (i : Instr) (s : State) : Host.Outcome State Fault Refusal :=
  match i with
  | .init outlen => Sys2Proof.Machine.execInit outlen s
  | .initKey outlen keylen => Sys2Proof.Machine.execInitKey outlen keylen s
  | .initParam => Sys2Proof.Machine.execInitParam s
  | .update => Sys2Proof.Machine.execUpdate s
  | .final outlen => Sys2Proof.Machine.execFinal outlen s
  | .hmac outlen => Sys2Proof.Machine.execHmac outlen s
  | .setln ln => Sys2Proof.Machine.execSetln ln s

end Sys2Proof.Machine
end

