-- ==== Sys2Proof/Machine/Step.lean ====
section
/-! DEFINITION. One step of the machine: either one step of the engine or one event of the host, in the interleaving the state
carries (spec 20_memory.md R70, R72). -/

namespace Sys2Proof.Machine

/-- The engine's step: the self-test when it is still to come (R266), else the completion of the latched command (R232). -/
def engineStep (s : State) : Host.Outcome State Fault Refusal :=
  if s.status.selfTestPending then .next s.selfTest
  else
    match s.fetch with
    | .ok i => exec i s
    | .error _ => .next s.runIllegal

/-- One step. An idle engine with nothing pending holds its state (R249, R261). -/
def step (s : State) : Host.Outcome State Fault Refusal :=
  if s.engineTurn then engineStep s
  else
    match s.inputs with
    | [] => .next s
    | i :: rest => { s with inputs := rest }.event i.event

/-- `s` just after the host's write of a command word was accepted, with no event to come before its completion: the next step runs
the command (R33, R72; log entry 6). A self-test that is still to come is taken as passed. -/
def State.withFetchWord (s : State) (nbits w : Nat) : State :=
  let s := { s with inputs := [], status := { s.status with ready := s.status.ready || !s.status.stfail } }
  s.acceptCommand (BitVec.ofNat 32 (w % 2 ^ nbits))

end Sys2Proof.Machine
end

