-- ==== Sys2Proof/Machine/Program.lean ====
section
/-! DEFINITION. The assembler notation of host programs (spec 30_encoding.md R97, R98): host operations, the pseudo-instructions, and
the events each stands for. -/

namespace Sys2Proof.Machine

/-- A host operation of R97. -/
inductive HostOp where
  /-- `WR off, value`: a 32-bit write. -/
  | wr (off : Nat) (value : Word)
  /-- `WRB off, value`: an 8-bit write. -/
  | wrb (off : Nat) (value : Byte)
  /-- `RD off`: a 32-bit read. -/
  | rd (off : Nat)
  /-- `WAIT`: read STATUS until BUSY = 0. -/
  | wait
  /-- A command mnemonic on its own line: `WR 0x00C, <its word>`. -/
  | command (i : Instr)
deriving DecidableEq, Repr

/-- The word of a command mnemonic, as R97 forms it from its immediates. For a well-formed command it is `encode`; an immediate past 255
is not cut to its field. Of SETLN's immediate, to which R97 gives no range, only 0 and 1 can be written here (log entry 23). -/
def assembledWord : Instr → Word
  | .init outlen => 0x01 ||| BitVec.ofNat 32 outlen <<< 8
  | .initKey outlen keylen => 0x02 ||| BitVec.ofNat 32 outlen <<< 8 ||| BitVec.ofNat 32 keylen <<< 16
  | .initParam => 0x03
  | .update => 0x04
  | .final outlen => 0x05 ||| BitVec.ofNat 32 outlen <<< 8
  | .hmac outlen => 0x06 ||| BitVec.ofNat 32 outlen <<< 8
  | .setln ln => 0x07 ||| (BitVec.ofBool ln).setWidth 32 <<< 16

/-- The access of a host operation. Of a WAIT it is the last read, the one that returns BUSY = 0; the reads before it change
nothing (R71, R97).

DESIGN CHOICE (log entry 23): the spec gives offsets 0x0000 to 0xFFFF alone (R64), so an operation at an offset past 0xFFFF names no
access of the spec; here its offset is taken modulo 2^16, which lands in the register region or the window again. -/
def HostOp.toAccess : HostOp → Access
  | .wr off v => .write (BitVec.ofNat 16 off) .w32 v
  | .wrb off v => .write (BitVec.ofNat 16 off) .w8 (v.setWidth 32)
  | .rd off => .read (BitVec.ofNat 16 off) .w32
  | .wait => .read (BitVec.ofNat 16 Reg.status.offset) .w32
  | .command i => .write (BitVec.ofNat 16 Reg.cmd.offset) .w32 (assembledWord i)

/-- The event of a host operation. `early` says whether it falls before the engine's step when one is due; the last read of a WAIT
never does (R72 item 3). -/
def HostOp.toInput (early : Bool) (op : HostOp) : Input :=
  { event := .access op.toAccess, duringBusy := early && op != .wait }

/-- `DMEM+a` (R97). For `a` past 0xEFFF, which is past every DMEM (R9), the offset is past the aperture (log entry 23). -/
def dmemOffset (a : Nat) : Nat := windowBase + a

/-- `WR ARGi, v`. -/
def setArg (i : Fin 5) (v : Word) : HostOp := .wr (Reg.offset (.arg i)) v

/-- `load a, b0 b1 ...` (R98). -/
def load : Nat → List Byte → List HostOp
  | _, [] => []
  | a, b :: bs => .wrb (dmemOffset a) b :: load (a + 1) bs

/-- `init n` (R98). -/
def pseudoInit (n : Nat) : List HostOp := [.command (.init n), .wait]

/-- `init_key n, ka, kl` (R98). -/
def pseudoInitKey (n : Nat) (ka : Word) (kl : Nat) : List HostOp := [setArg 0 ka, .command (.initKey n kl), .wait]

/-- `init_param pa` (R98). -/
def pseudoInitParam (pa : Word) : List HostOp := [setArg 0 pa, .command .initParam, .wait]

/-- `update a, l` (R98). -/
def pseudoUpdate (a l : Word) : List HostOp := [setArg 0 a, setArg 1 l, .command .update, .wait]

/-- `final oa, n` (R98). -/
def pseudoFinal (oa : Word) (n : Nat) : List HostOp := [setArg 0 oa, .command (.final n), .wait]

/-- `hmac oa, ma, ka, n, ml, kl` (R98). -/
def pseudoHmac (oa ma ka : Word) (n : Nat) (ml kl : Word) : List HostOp :=
  [setArg 0 ma, setArg 1 ml, setArg 2 ka, setArg 3 kl, setArg 4 oa, .command (.hmac n), .wait]

/-- `setln b` (R98). -/
def pseudoSetln (b : Bool) : List HostOp := [.command (.setln b), .wait]

/-- `hash oa, a, l, n` (R98). -/
def pseudoHash (oa a l : Word) (n : Nat) : List HostOp := pseudoInit n ++ pseudoUpdate a l ++ pseudoFinal oa n

/-- A program placed before the host: each operation with its place in the interleaving (R72). -/
def State.withProgram (s : State) (program : List (HostOp × Bool)) : State :=
  { s with inputs := program.map fun p => p.1.toInput p.2 }

end Sys2Proof.Machine
end

