-- ==== Sys2Proof/Safety.lean ====
section
/-! DEFINITION. What counts as a legal state of the machine, and which error a command must report, in the terms the claims use. Both
are written from the spec's tables and not from the meanings. -/

namespace Sys2Proof.Machine

/-! ## Legal states -/

/-- What the spec says of the streaming context between commands (R22, R23, R24, R27, R28, R173). -/
structure Ctx.Legal (c : Ctx) : Prop where
  /-- `0 <= buflen <= 64` (R24). -/
  buflen_le : c.buflen ≤ 64
  /-- Buffer bytes from the fill length on are zero (R23, R173). -/
  tail_zero : ∀ k : Fin 64, c.buflen ≤ k.val → c.buf[k] = 0
  /-- No finalisation flag is set (R22). -/
  f0_zero : c.f0 = 0
  f1_zero : c.f1 = 0
  /-- Only whole blocks have been counted (R27). -/
  t_blocks : c.t.toNat % 64 = 0
  /-- An invalid context is erased (R28). -/
  erased : c.valid = false → c = Ctx.erased

/-- What the spec says of the status bits (R32, R33, R266). -/
structure Status.Legal (cfg : Config) (st : Status) : Prop where
  /-- The engine is not at once available and failed (R32). -/
  not_both : ¬(st.ready = true ∧ st.stfail = true)
  /-- It is neither available nor failed only while the self-test runs (R266). -/
  pending : st.ready = false → st.stfail = false → st.busy = true ∧ cfg.selftestPresent = true
  /-- Only a self-test can fail (R266). -/
  failed : st.stfail = true → cfg.selftestPresent = true
  /-- While BUSY = 1, DONE and ERRCODE are clear (R33, R266). -/
  busy_clear : st.busy = true → st.done = false ∧ st.errcode = .ok

/-- The invariant of the machine: what holds between steps. -/
structure State.Inv (s : State) : Prop where
  /-- The parameters are in the range of R9. -/
  cfg_wf : s.cfg.wf
  ctx_legal : s.ctx.Legal
  /-- The hidden stores are zero between commands (R29). -/
  hidden_zero : s.hidden = Hidden.zero
  status_legal : s.status.Legal s.cfg
  /-- DMEM is in canonical form and inside its address space (R60). -/
  mem_wf : Memory.wf s.mem = true
  mem_within : Memory.within s.mem s.cfg.dmemSize = true

/-! ## The error a command must report (R230, R240) -/

/-- The commands that need a valid context (R233). -/
def Instr.needsContext : Instr → Bool
  | .update | .final _ | .setln _ => true
  | .init _ | .initKey _ _ | .initParam | .hmac _ => false

/-- The OUTLEN of the commands that check it (R234). -/
def Instr.outlen? : Instr → Option Nat
  | .init n | .initKey n _ | .final n | .hmac n => some n
  | .initParam | .update | .setln _ => none

/-- The KEYLEN of the command that checks it (R236). -/
def Instr.keylen? : Instr → Option Nat
  | .initKey _ k => some k
  | .init _ | .initParam | .update | .final _ | .hmac _ | .setln _ => none

/-- The DMEM ranges a command names, each an address and a length (R61, R235). -/
def State.ranges (s : State) : Instr → List (Nat × Nat)
  | .init _ | .setln _ => []
  | .initKey _ k => [(s.argNat 0, k)]
  | .initParam => [(s.argNat 0, 32)]
  | .update => [(s.argNat 0, s.argNat 1)]
  | .final n => [(s.argNat 0, n)]
  | .hmac n => [(s.argNat 0, s.argNat 1), (s.argNat 2, s.argNat 3), (s.argNat 4, n)]

/-- A length outside 1 to 32 (R234, R236). -/
abbrev badLength (n : Nat) : Prop := n = 0 ∨ 32 < n

/-- An invalid DMEM range (R62). -/
abbrev badRange (dmemSize : Nat) (r : Nat × Nat) : Prop := r.2 ≠ 0 ∧ dmemSize < r.1 + r.2

/-- The error a decoded command must report: the first failing check in the order of R240, E_OK if none fails. -/
def requiredError (i : Instr) (s : State) : ErrCode :=
  if s.status.stfail = true then .unavail
  else if Instr.needsContext i = true ∧ s.ctx.valid = false then .state
  else if ∃ n ∈ Instr.outlen? i, badLength n then .outlen
  else if ∃ k ∈ Instr.keylen? i, badLength k then .keylen
  else if ∃ r ∈ s.ranges i, badRange s.cfg.dmemSize r then .range
  else .ok

/-! ## The aperture, by its offsets (R65, R66) -/

/-- What a 32-bit read of the register region returns at an offset (R30 to R35, R65): of CTRL bit 0 is IE and every other bit, SRST too,
reads 0 (R31), and the state view is 0 while BUSY = 1 (R272). -/
def registerValue (s : State) (off : Nat) : Word :=
  if off = 0x000 then 0x42325301
  else if off = 0x004 then if s.ie = true then 0x00000001 else 0
  else if off = 0x008 then s.statusWord
  else if 0x010 ≤ off ∧ off < 0x024 then s.args.toList.getD ((off - 0x010) / 4) 0
  else if s.status.busy = true then 0
  else if 0x040 ≤ off ∧ off < 0x060 then s.ctx.h.toList.getD ((off - 0x040) / 4) 0
  else if off = 0x060 then s.ctx.t.extractLsb' 0 32
  else if off = 0x064 then s.ctx.t.extractLsb' 32 32
  else if off = 0x068 then s.ctx.f0
  else if off = 0x06C then s.ctx.f1
  else if off = 0x070 then BitVec.ofNat 32 s.ctx.buflen
  else if 0x080 ≤ off ∧ off < 0x0C0 then le32 s.ctx.buf.toList (off - 0x080)
  else 0

/-- The accesses the interface accepts (R66). -/
abbrev accepted (off : Nat) (w : Width) : Prop :=
  (w = .w32 ∧ off % 4 = 0) ∨ (0x1000 ≤ off ∧ (w = .w8 ∨ (w = .w16 ∧ off % 2 = 0)))

/-- A register that a host write changes nothing by: ID, the state view and the reserved offsets (R30, R35, R65). -/
abbrev ignoresWrites (off : Nat) : Prop := off = 0x000 ∨ (0x024 ≤ off ∧ off < 0x1000)

/-- The next step is the host's: its next event is `e`, and if the engine has a step to take the event falls before it (R72). -/
abbrev State.HostTurn (s : State) (e : Event) (rest : List Input) : Prop :=
  ∃ early, s.inputs = { event := e, duringBusy := early } :: rest ∧ (s.status.busy = true → early = true)

/-- The engine has a command to complete, it does so in the next step, and no self-test is in the way (R72, R266). -/
abbrev State.Completing (s : State) : Prop :=
  s.status.busy = true ∧ (s.status.ready = true ∨ s.status.stfail = true) ∧ ∀ i ∈ s.inputs.head?, i.duringBusy = false

end Sys2Proof.Machine
end

