-- ==== Sys2Proof/Certificates/Slice0/Obligations.lean ====
section
/-! DEFINITION. The statements about the model, from the spec's numbered rules. -/

open Sys2Proof Sys2Proof.Machine

/-! ## Encoding -/

/-- R94, R90, R91: the decoder reads back every command the encoder writes. -/
def Obligations.DecodeReadsBackEncode : Prop :=
  ∀ i : Instr, i.wf = true → decodeWord (encode i) = .ok i

/-- R94, R95: a word that decodes is the encoding of what it decodes to, so no bit of a legal word is dropped. -/
def Obligations.LegalWordIsItsCommandsEncoding : Prop :=
  ∀ (w : Word) (i : Instr), decodeWord w = .ok i → i.wf = true ∧ encode i = w

/-- R94: the words a row selects by `(w & MASK[op]) = MATCH[op]` are the words that decode to its command. -/
def Obligations.WordSelectsItsOpcodeRow : Prop :=
  ∀ (w : Word) (r : OpcodeRow), r ∈ opcodeTable →
    (w &&& (r.resvMask ||| 0x000000FF) = r.opc.setWidth 32 ↔ ∃ i, decodeWord w = .ok i ∧ i.mnemonic = r.mnemonic)

/-- R95: the illegal words are those with OPC 0x00 or 0x08 to 0xFF, and those with a reserved bit set. -/
def Obligations.IllegalWordsAreExactlyR95 : Prop :=
  ∀ w : Word,
    (∀ i, decodeWord w ≠ .ok i) ↔
      ((w.extractLsb' 0 8).toNat = 0 ∨ 8 ≤ (w.extractLsb' 0 8).toNat ∨
        ∃ r ∈ opcodeTable, r.opc = w.extractLsb' 0 8 ∧ w &&& r.resvMask ≠ 0)

/-- R97: the word of each command mnemonic, as the assembler forms it. -/
def Obligations.AssemblerWords : Prop :=
  ∀ (n k : Nat) (b : Bool), n < 256 → k < 256 →
    encode (.init n) = 0x01#32 ||| BitVec.ofNat 32 n <<< 8 ∧
    encode (.initKey n k) = 0x02#32 ||| BitVec.ofNat 32 n <<< 8 ||| BitVec.ofNat 32 k <<< 16 ∧
    encode .initParam = 0x03#32 ∧ encode .update = 0x04#32 ∧
    encode (.final n) = 0x05#32 ||| BitVec.ofNat 32 n <<< 8 ∧
    encode (.hmac n) = 0x06#32 ||| BitVec.ofNat 32 n <<< 8 ∧
    encode (.setln b) = 0x07#32 ||| (if b then 1#32 else 0#32) <<< 16

/-- R92, R94: words written out from the formats of R90 decode to their commands. -/
def Obligations.SampleWordsDecode : Prop :=
  decodeWord 0b00000000000000000010000000000001#32 = .ok (.init 32) ∧
  decodeWord 0b00000000000001010001010000000010#32 = .ok (.initKey 20 5) ∧
  decodeWord 0b00000000000000000000000000000011#32 = .ok .initParam ∧
  decodeWord 0b00000000000000000000000000000100#32 = .ok .update ∧
  decodeWord 0b00000000000000000001000000000101#32 = .ok (.final 16) ∧
  decodeWord 0b00000000000000000010000000000110#32 = .ok (.hmac 32) ∧
  decodeWord 0b00000000000000010000000000000111#32 = .ok (.setln true)

/-! ## Steps (R16, R70, R72) -/

/-- R94, R232: when the latched word decodes to a command, the engine's step is that command. -/
def Obligations.StepRunsDecodedCommand : Prop :=
  ∀ (s : State) (i : Instr), s.Completing → decodeWord s.pcmd = .ok i → step s = exec i s

/-- R33, R94: once the word of a command is accepted, the engine's next step is that command. -/
def Obligations.AcceptedCommandRunsNext : Prop :=
  ∀ (s : State) (i : Instr) (rest : List Input) (early : Bool), i.wf = true → s.status.busy = false →
    (s.status.ready = true ∨ s.status.stfail = true) → (∀ e ∈ rest.head?, e.duringBusy = false) →
    s.inputs = { event := .access (.write 0x00C .w32 (encode i)), duringBusy := early } :: rest →
    ∃ t, step s = .next t ∧
      t = { s with inputs := rest, pcmd := encode i,
                   status := { s.status with busy := true, done := false, errcode := .ok } } ∧
      step t = exec i t

/-- R231, R240: a word that is no command completes with E_ILLEGAL, after E_UNAVAIL, and has no other effect. -/
def Obligations.IllegalWordCompletesWithError : Prop :=
  ∀ (s : State) (e : DecodeError), s.Completing → decodeWord s.pcmd = .error e →
    step s = .next { s with status := { s.status with
      busy := false, done := true, errcode := if s.status.stfail then .unavail else .illegal } }

/-- R237: while STFAIL = 1 every accepted word, command or not, ends in E_UNAVAIL. Only a reset, hardware or soft, ends that, and after
one the engine is available at once in a build without a self-test and runs its self-test again in a build with one. READY rises by
nothing but such a reset in a build without a self-test, or the step of a self-test that passes (the draw of log entry 3), which no
failed engine takes. -/
def Obligations.FailedSelfTestBlocksUntilReset : Prop :=
  (∀ s : State, s.Completing → s.status.stfail = true →
    step s = .next { s with status := { s.status with busy := false, done := true, errcode := .unavail } }) ∧
  (∀ s t : State, step s = .next t → s.status.stfail = true → s.status.ready = false →
    (t.status.stfail = false ∨ t.status.ready = true) →
    (∃ e rest, s.HostTurn e rest ∧
      (e = .hardwareReset ∨
        (s.status.busy = false ∧ ∃ off v, e = .access (.write off .w32 v) ∧ off.toNat = 0x004 ∧ v.getLsbD 1 = true))) ∧
      t.status.ready = !s.cfg.selftestPresent ∧ t.status.busy = s.cfg.selftestPresent) ∧
  ∀ s t : State, step s = .next t → s.status.ready = false → t.status.ready = true →
    (s.cfg.selftestPresent = false ∧ ∃ e rest, s.HostTurn e rest ∧
      (e = .hardwareReset ∨
        (s.status.busy = false ∧ ∃ off v, e = .access (.write off .w32 v) ∧ off.toNat = 0x004 ∧ v.getLsbD 1 = true))) ∨
    (s.status.busy = true ∧ s.status.stfail = false ∧ (∀ i ∈ s.inputs.head?, i.duringBusy = false) ∧
      Config.selftestFail s.selfTests = false ∧ t = s.selfTest)

/-- R249 and log entry 7 (the model's choice of a step that changes nothing): an idle engine holds its state. -/
def Obligations.IdleEngineHoldsItsState : Prop :=
  ∀ s : State, s.status.busy = false → s.inputs = [] → step s = .next s

/-! ## Checks, completion and errors (R230 to R240) -/

/-- R232 to R236, R240: every command completes, with the first failing check in the order of R240 as its code; with an error it
changes nothing else. At the step, E_ILLEGAL stands between E_UNAVAIL and the rest. -/
def Obligations.CommandReportsFirstFailingCheck : Prop :=
  (∀ (i : Instr) (s : State), ∃ t, exec i s = .next t ∧
    t.status = { s.status with busy := false, done := true, errcode := requiredError i s } ∧
    (requiredError i s ≠ .ok → t = { s with status := t.status })) ∧
  ∀ s : State, s.Completing → ∃ t, step s = .next t ∧
    t.status.errcode =
      match decodeWord s.pcmd with
      | .ok i => requiredError i s
      | .error _ => if s.status.stfail = true then .unavail else .illegal

/-- R233: without a valid context UPDATE, FINAL and SETLN end in E_STATE, whatever their operands. -/
def Obligations.CommandsWithoutContextRaiseState : Prop :=
  ∀ (s : State) (n : Nat) (b : Bool), s.status.stfail = false → s.ctx.valid = false →
    let t := { s with status := { s.status with busy := false, done := true, errcode := ErrCode.state } }
    exec .update s = .next t ∧ exec (.final n) s = .next t ∧ exec (.setln b) s = .next t

/-- Derived by the spec from R194 and R233 (R198): after a FINAL that completed without error, UPDATE, FINAL and SETLN raise E_STATE. -/
def Obligations.FinalEndsTheContext : Prop :=
  ∀ (s t : State) (n : Nat) (i : Instr), s.status.stfail = false → exec (.final n) s = .next t → t.status.errcode = .ok →
    (i = .update ∨ (∃ m, i = .final m) ∨ ∃ b, i = .setln b) →
    exec i t = .next { t with status := { t.status with busy := false, done := true, errcode := .state } }

/-- R62: a range is checked in unbounded integers, and an empty range is valid anywhere. UPDATE with an invalid range ends in
E_RANGE. -/
def Obligations.RangeCheckDoesNotWrap : Prop :=
  ∀ s : State, s.status.stfail = false → s.ctx.valid = true →
    ((s.args[1] ≠ 0 ∧ s.cfg.dmemSize < s.args[0].toNat + s.args[1].toNat) ↔
      exec .update s = .next { s with status := { s.status with busy := false, done := true, errcode := .range } })

/-- R277: which error a command raises depends on the command, the context's validity, the ARG registers and the build alone, not on
data bytes. -/
def Obligations.ErrorCodeIgnoresData : Prop :=
  ∀ (i : Instr) (s s' t t' : State), s.cfg = s'.cfg → s.args = s'.args → s.status.stfail = s'.status.stfail →
    s.ctx.valid = s'.ctx.valid → exec i s = .next t → exec i s' = .next t' → t.status.errcode = t'.status.errcode

/-! ## The commands: results and completion -/

/-- R150: INIT with a legal OUTLEN creates the context of `PARAM(OUTLEN, 0)` and changes nothing else. -/
def Obligations.InitCreatesContext : Prop :=
  ∀ (s : State) (n : Nat), s.status.stfail = false → 1 ≤ n → n ≤ 32 →
    exec (.init n) s = .next { s with
      ctx := { h := #v[0x6A09E667 ^^^ (0x01010000 ||| BitVec.ofNat 32 n), 0xBB67AE85, 0x3C6EF372, 0xA54FF53A, 0x510E527F,
                       0x9B05688C, 0x1F83D9AB, 0x5BE0CD19]
               t := 0, f0 := 0, f1 := 0, buf := Vector.replicate 64 0, buflen := 0, lastNode := false, valid := true }
      status := { s.status with busy := false, done := true, errcode := .ok } }

/-- R152, R153: INIT_PARAM with a valid range creates the context of the 32 DMEM bytes at ARG0, which it does not check. -/
def Obligations.InitParamCreatesContext : Prop :=
  ∀ s : State, s.status.stfail = false → (s.arg 0).toNat + 32 ≤ s.cfg.dmemSize →
    let iv : Vector Word 8 :=
      #v[0x6A09E667, 0xBB67AE85, 0x3C6EF372, 0xA54FF53A, 0x510E527F, 0x9B05688C, 0x1F83D9AB, 0x5BE0CD19]
    exec .initParam s = .next { s with
      ctx := { h := Vector.ofFn fun i => iv[i] ^^^ wordOfBytes (s.dmemByte ((s.arg 0).toNat + 4 * i.val))
                       (s.dmemByte ((s.arg 0).toNat + 4 * i.val + 1)) (s.dmemByte ((s.arg 0).toNat + 4 * i.val + 2))
                       (s.dmemByte ((s.arg 0).toNat + 4 * i.val + 3))
               t := 0, f0 := 0, f1 := 0, buf := Vector.replicate 64 0, buflen := 0, lastNode := false, valid := true }
      status := { s.status with busy := false, done := true, errcode := .ok } }

/-- R151, whose offsets the spec supplies from general knowledge (log entry 20), with R153 and R158: where the fields of a parameter
block enter the chaining value of the context INIT_PARAM creates from its 32 bytes in DMEM. The fields have no other effect: the rest
of the context is the same for every block. -/
def Obligations.ParameterFieldsEnterChainingValue : Prop :=
  ∀ p : ParamBlock,
    let iv : Vector Word 8 :=
      #v[0x6A09E667, 0xBB67AE85, 0x3C6EF372, 0xA54FF53A, 0x510E527F, 0x9B05688C, 0x1F83D9AB, 0x5BE0CD19]
    (∀ s : State, s.status.stfail = false → (s.arg 0).toNat + 32 ≤ s.cfg.dmemSize →
      (∀ k, k < 32 → s.dmemByte ((s.arg 0).toNat + k) = byteAt p.bytes k) →
      exec .initParam s = .next { s with
        ctx := pinit p.bytes, status := { s.status with busy := false, done := true, errcode := .ok } }) ∧
    (pinit p.bytes).h = #v[
      iv[0] ^^^ (p.digestLength.setWidth 32 ||| p.keyLength.setWidth 32 <<< 8 ||| p.fanout.setWidth 32 <<< 16 |||
        p.depth.setWidth 32 <<< 24),
      iv[1] ^^^ p.leafLength, iv[2] ^^^ p.nodeOffset,
      iv[3] ^^^ (p.xofLength.setWidth 32 ||| p.nodeDepth.setWidth 32 <<< 16 ||| p.innerLength.setWidth 32 <<< 24),
      iv[4] ^^^ le32 p.salt.toList 0, iv[5] ^^^ le32 p.salt.toList 4,
      iv[6] ^^^ le32 p.personalization.toList 0, iv[7] ^^^ le32 p.personalization.toList 4] ∧
    pinit p.bytes = { pinit (param 32 0) with h := (pinit p.bytes).h }

/-- Derived by the spec from R150 and R153 (a corner case of R152): a block equal to `PARAM(n, 0)` gives the same context as INIT n. -/
def Obligations.InitParamOfDefaultBlockIsInit : Prop :=
  ∀ (s : State) (n : Nat), 1 ≤ n → n ≤ 32 → (s.arg 0).toNat + 32 ≤ s.cfg.dmemSize →
    (∀ k, k < 32 → s.dmemByte ((s.arg 0).toNat + k) =
      if k = 0 then BitVec.ofNat 8 n else if k = 2 ∨ k = 3 then 1 else 0) →
    exec .initParam s = exec (.init n) s

/-- R155: INIT_KEY with legal operands leaves the key, zero-padded, as a full buffer that is not compressed yet. -/
def Obligations.InitKeyBuffersPaddedKey : Prop :=
  ∀ (s : State) (n k : Nat), s.status.stfail = false → 1 ≤ n → n ≤ 32 → 1 ≤ k → k ≤ 32 →
    (s.arg 0).toNat + k ≤ s.cfg.dmemSize →
    exec (.initKey n k) s = .next { s with
      ctx := { h := #v[0x6A09E667 ^^^ (0x01010000 ||| BitVec.ofNat 32 k <<< 8 ||| BitVec.ofNat 32 n), 0xBB67AE85, 0x3C6EF372,
                       0xA54FF53A, 0x510E527F, 0x9B05688C, 0x1F83D9AB, 0x5BE0CD19]
               t := 0, f0 := 0, f1 := 0
               buf := Vector.ofFn fun j => if j.val < k then s.dmemByte ((s.arg 0).toNat + j.val) else 0
               buflen := 64, lastNode := false, valid := true }
      hidden := { s.hidden with initKeyBlock := Vector.replicate 64 0 }
      status := { s.status with busy := false, done := true, errcode := .ok } }

/-- R170: UPDATE on a valid context with a valid range completes without error and changes only the context, the working stores it
used, and the status. -/
def Obligations.UpdateAbsorbsDmemBytes : Prop :=
  ∀ s : State, s.status.stfail = false → s.ctx.valid = true →
    (s.arg 1 = 0 ∨ (s.arg 0).toNat + (s.arg 1).toNat ≤ s.cfg.dmemSize) →
    exec .update s = .next { s with
      ctx := upd s.ctx (List.ofFn fun k : Fin (s.arg 1).toNat => s.dmemByte ((s.arg 0).toNat + k.val))
      hidden := if (s.arg 1).toNat ≤ 64 - s.ctx.buflen then s.hidden
                else { s.hidden with v := Vector.replicate 16 0, m := Vector.replicate 16 0 }
      status := { s.status with busy := false, done := true, errcode := .ok } }

/-- R175: `UPD` of no bytes writes nothing, and UPDATE of no bytes on a valid context changes the status alone, at any address. -/
def Obligations.EmptyUpdateIsNoOp : Prop :=
  (∀ c : Ctx, upd c [] = c) ∧ ∀ s : State, s.status.stfail = false → s.ctx.valid = true → s.arg 1 = 0 →
    exec .update s = .next { s with status := { s.status with busy := false, done := true, errcode := .ok } }

/-- R190 to R195: FINAL on a valid context with legal operands writes the digest of the padded, flagged last block to ARG0, where
DMEM then reads as it, and leaves the context all zero. -/
def Obligations.FinalWritesDigestAndErases : Prop :=
  ∀ (s : State) (n : Nat), s.status.stfail = false → s.ctx.valid = true → 1 ≤ n → n ≤ 32 →
    (s.arg 0).toNat + n ≤ s.cfg.dmemSize →
    let block : List Byte := List.ofFn fun k : Fin 64 => if k.val < s.ctx.buflen then s.ctx.buf[k] else 0
    let h := compressH s.ctx.h (s.ctx.t + BitVec.ofNat 64 s.ctx.buflen) 0xFFFFFFFF
      (if s.ctx.lastNode then 0xFFFFFFFF else s.ctx.f1) block
    let out := (h.toList.flatMap bytesOfWord).take n
    ∃ t, exec (.final n) s = .next t ∧
      t = { s with
        ctx := { h := Vector.replicate 8 0, t := 0, f0 := 0, f1 := 0, buf := Vector.replicate 64 0, buflen := 0,
                 lastNode := false, valid := false }
        hidden := { s.hidden with v := Vector.replicate 16 0, m := Vector.replicate 16 0 }
        mem := Memory.writeBytes s.mem (s.arg 0).toNat out
        status := { s.status with busy := false, done := true, errcode := .ok } } ∧
      ∀ k, k < n → out[k]? = some (t.dmemByte ((s.arg 0).toNat + k))

/-- R210 to R217, each hash in one `UPD` by R174 (derived there): HMAC with legal operands writes the first OUTLEN bytes of the nested hash
`H(K' ^ 0x5c.. ‖ H(K' ^ 0x36.. ‖ message))`, where DMEM then reads as them, leaves its hidden stores zero (R216), and touches
neither the streaming context nor any other DMEM byte. Each `H` starts from the context of INIT 32 and ends as FINAL 32 does. -/
def Obligations.HmacWritesNestedHash : Prop :=
  ∀ (s : State) (n : Nat), s.status.stfail = false → 1 ≤ n → n ≤ 32 →
    (s.arg 1 = 0 ∨ (s.arg 0).toNat + (s.arg 1).toNat ≤ s.cfg.dmemSize) →
    (s.arg 3 = 0 ∨ (s.arg 2).toNat + (s.arg 3).toNat ≤ s.cfg.dmemSize) →
    (s.arg 4).toNat + n ≤ s.cfg.dmemSize →
    let start : Ctx :=
      { h := #v[0x6A09E667 ^^^ 0x01010020, 0xBB67AE85, 0x3C6EF372, 0xA54FF53A, 0x510E527F, 0x9B05688C, 0x1F83D9AB, 0x5BE0CD19]
        t := 0, f0 := 0, f1 := 0, buf := Vector.replicate 64 0, buflen := 0, lastNode := false, valid := true }
    let hash : List Byte → List Byte := fun x =>
      let c := upd start x
      (compressH c.h (c.t + BitVec.ofNat 64 c.buflen) 0xFFFFFFFF 0
        (List.ofFn fun k : Fin 64 => if k.val < c.buflen then c.buf[k] else 0)).toList.flatMap bytesOfWord
    let msg := List.ofFn fun k : Fin (s.arg 1).toNat => s.dmemByte ((s.arg 0).toNat + k.val)
    let key := List.ofFn fun k : Fin (s.arg 3).toNat => s.dmemByte ((s.arg 2).toNat + k.val)
    let padded := if 64 < (s.arg 3).toNat then hash key ++ List.replicate 32 0
                  else key ++ List.replicate (64 - (s.arg 3).toNat) 0
    let inner := hash (padded.map (fun x => x ^^^ 0x36) ++ msg)
    let out := (hash (padded.map (fun x => x ^^^ 0x5c) ++ inner)).take n
    ∃ t, exec (.hmac n) s = .next t ∧
      t = { s with
        hidden := { s.hidden with p := Ctx.erased, keyBlock := Vector.replicate 64 0, innerDigest := Vector.replicate 32 0,
                                  v := Vector.replicate 16 0, m := Vector.replicate 16 0 }
        mem := Memory.writeBytes s.mem (s.arg 4).toNat out
        status := { s.status with busy := false, done := true, errcode := .ok } } ∧
      ∀ k, k < n → out[k]? = some (t.dmemByte ((s.arg 4).toNat + k))

/-- R196: SETLN on a valid context writes the last-node flag and no other field. -/
def Obligations.SetlnWritesLastNode : Prop :=
  ∀ (s : State) (b : Bool), s.status.stfail = false → s.ctx.valid = true →
    exec (.setln b) s = .next { s with
      ctx := { s.ctx with lastNode := b }
      status := { s.status with busy := false, done := true, errcode := .ok } }

/-! ## Frames -/

/-- Frame of the commands that store nothing (R34, R61, R77): the ARG registers, CTRL, the latch, the build and every byte of DMEM are
unchanged, and so are OVR, READY and STFAIL. Of the context, UPDATE keeps the flag words, the last-node flag and the validity, and
SETLN keeps all but the last-node flag. -/
def Obligations.NonStoringCommandsFrame : Prop :=
  ∀ (i : Instr) (s t : State),
    ((∃ n, i = .init n) ∨ (∃ n k, i = .initKey n k) ∨ i = .initParam ∨ i = .update ∨ ∃ b, i = .setln b) →
    exec i s = .next t →
    t.cfg = s.cfg ∧ t.args = s.args ∧ t.ie = s.ie ∧ t.pcmd = s.pcmd ∧ t.mem = s.mem ∧ (∀ a, t.dmemByte a = s.dmemByte a) ∧
      t.epoch = s.epoch ∧ t.selfTests = s.selfTests ∧ t.inputs = s.inputs ∧ t.rdata = s.rdata ∧
      t.status.ovr = s.status.ovr ∧ t.status.ready = s.status.ready ∧ t.status.stfail = s.status.stfail ∧
      t.hidden.p = s.hidden.p ∧ t.hidden.keyBlock = s.hidden.keyBlock ∧ t.hidden.innerDigest = s.hidden.innerDigest ∧
      (i = .update → t.ctx.f0 = s.ctx.f0 ∧ t.ctx.f1 = s.ctx.f1 ∧ t.ctx.lastNode = s.ctx.lastNode ∧ t.ctx.valid = s.ctx.valid) ∧
      (∀ b, i = .setln b → t.ctx = { s.ctx with lastNode := t.ctx.lastNode } ∧ t.hidden = s.hidden)

/-- Frame of the commands that store (R77, D40): FINAL stores to the OUTLEN bytes at ARG0 and HMAC to the OUTLEN bytes at ARG4; every
other byte of DMEM, the ARG registers, CTRL, the latch, the build and OVR, READY and STFAIL are unchanged, and HMAC leaves the whole
streaming context (R217). -/
def Obligations.StoringCommandsFrame : Prop :=
  ∀ (n : Nat) (i : Instr) (s t : State) (base : Nat),
    (i = .final n ∧ base = (s.arg 0).toNat) ∨ (i = .hmac n ∧ base = (s.arg 4).toNat) →
    exec i s = .next t →
    (∀ a, a < base ∨ base + n ≤ a → t.dmemByte a = s.dmemByte a) ∧
      t.cfg = s.cfg ∧ t.args = s.args ∧ t.ie = s.ie ∧ t.pcmd = s.pcmd ∧ t.epoch = s.epoch ∧ t.selfTests = s.selfTests ∧
      t.inputs = s.inputs ∧ t.rdata = s.rdata ∧
      t.status.ovr = s.status.ovr ∧ t.status.ready = s.status.ready ∧ t.status.stfail = s.status.stfail ∧
      t.hidden.initKeyBlock = s.hidden.initKeyBlock ∧ (i = .hmac n → t.ctx = s.ctx)

/-- R77 for the whole machine: a byte of DMEM changes only inside the output range of a FINAL or HMAC, in a host write to the window
while the engine is idle, or in a hardware reset. -/
def Obligations.DmemChangesOnlyWhereStored : Prop :=
  ∀ (s t : State) (a : Nat), step s = .next t → t.dmemByte a ≠ s.dmemByte a →
    (s.Completing ∧ ∃ n, (decodeWord s.pcmd = .ok (.final n) ∧ (s.arg 0).toNat ≤ a ∧ a < (s.arg 0).toNat + n) ∨
        (decodeWord s.pcmd = .ok (.hmac n) ∧ (s.arg 4).toNat ≤ a ∧ a < (s.arg 4).toNat + n)) ∨
      (∃ off w v rest, s.HostTurn (.access (.write off w v)) rest ∧ s.status.busy = false ∧
        off.toNat ≤ 0x1000 + a ∧ 0x1000 + a < off.toNat + w.bytes) ∨
      ∃ rest, s.HostTurn .hardwareReset rest

/-- R34 for the whole machine: the ARG registers change only by a host write to one of them while the engine is idle, or by a
reset. -/
def Obligations.ArgRegistersChangeOnlyByHost : Prop :=
  ∀ s t : State, step s = .next t → t.args ≠ s.args →
    ∃ e rest, s.HostTurn e rest ∧
      (e = .hardwareReset ∨
        (s.status.busy = false ∧ ∃ off v, e = .access (.write off .w32 v) ∧
          ((0x010 ≤ off.toNat ∧ off.toNat < 0x024) ∨ (off.toNat = 0x004 ∧ v.getLsbD 1 = true))))

/-! ## Streaming (R27, R171 to R176) -/

/-- Derived by the spec from R171 to R173 (R174): absorbing a string in chunks, some of which may be empty, leaves the same context as
absorbing it whole. -/
def Obligations.StreamingEquivalence : Prop :=
  ∀ (c : Ctx) (chunks : List (List Byte)), c.buflen ≤ 64 → chunks.foldl upd c = upd c chunks.flatten

/-- A closed form of R171 to R173: `UPD` compresses, of the buffered bytes followed by the data, every block but the last, each with increment 64,
and buffers the rest in a cleared buffer. -/
def Obligations.UpdateHoldsBackLastBlock : Prop :=
  ∀ (c : Ctx) (d : List Byte), c.Legal → d ≠ [] →
    let stream := c.buf.toList.take c.buflen ++ d
    let blocks := (stream.length - 1) / 64
    upd c d = { compress c stream blocks 64 with
      buf := Vector.ofFn fun k => (stream.drop (64 * blocks)).getD k.val 0
      buflen := stream.length - 64 * blocks }

/-- Derived by the spec from R171 (R176): the buffer length and the counter after `UPD` of `n >= 1` bytes. -/
def Obligations.BufferLengthTrajectory : Prop :=
  ∀ (c : Ctx) (d : List Byte), c.buflen ≤ 64 → 1 ≤ d.length →
    (d.length ≤ 64 - c.buflen → (upd c d).buflen = c.buflen + d.length ∧ (upd c d).t = c.t) ∧
    (64 - c.buflen < d.length →
      (upd c d).buflen = (d.length - (64 - c.buflen) - 1) % 64 + 1 ∧
      (upd c d).t = c.t + 64 + BitVec.ofNat 64 (64 * ((d.length - (64 - c.buflen) - 1) / 64))) ∧
    1 ≤ (upd c d).buflen ∧ (upd c d).buflen ≤ 64

/-- Derived by the spec from R171 to R174 (R27): the counter plus the buffer length grows by exactly the bytes absorbed (modulo 2^64). -/
def Obligations.CounterPlusBufferCountsBytes : Prop :=
  ∀ (c : Ctx) (d : List Byte), c.buflen ≤ 64 →
    (upd c d).t + BitVec.ofNat 64 (upd c d).buflen = c.t + BitVec.ofNat 64 (c.buflen + d.length)

/-! ## Compression (R120 to R133) -/

/-- R123, whose order of operations the spec supplies from general knowledge (log entry 20): the four words `G` writes, for distinct
operands, and that it leaves the other twelve. -/
def Obligations.MixingFunctionResult : Prop :=
  ∀ (v : Vector Word 16) (a b c d : Fin 16) (x y : Word), a ≠ b → a ≠ c → a ≠ d → b ≠ c → b ≠ d → c ≠ d →
    let ror : Word → Nat → Word := fun z n => (z >>> n) ||| (z <<< (32 - n))
    let a1 := v[a] + v[b] + x
    let d1 := ror (v[d] ^^^ a1) 16
    let c1 := v[c] + d1
    let b1 := ror (v[b] ^^^ c1) 12
    let a2 := a1 + b1 + y
    let d2 := ror (d1 ^^^ a2) 8
    let c2 := c1 + d2
    let b2 := ror (b1 ^^^ c2) 7
    (mixG v a b c d x y)[a] = a2 ∧ (mixG v a b c d x y)[b] = b2 ∧ (mixG v a b c d x y)[c] = c2 ∧
      (mixG v a b c d x y)[d] = d2 ∧
      ∀ k : Fin 16, k ≠ a → k ≠ b → k ≠ c → k ≠ d → (mixG v a b c d x y)[k] = v[k]

/-- Derived by the spec from R123 (R124): calls of `G` on disjoint words give the same result in either order, as the four columns and the four diagonals do. -/
def Obligations.DisjointMixingCommutes : Prop :=
  ∀ (v : Vector Word 16) (a b c d a' b' c' d' : Fin 16) (x y x' y' : Word),
    [a, b, c, d, a', b', c', d'].Nodup →
    mixG (mixG v a b c d x y) a' b' c' d' x' y' = mixG (mixG v a' b' c' d' x' y') a b c d x y

/-- R127: `T0` and `T1` after `COMPRESS1`, with the carry into `T1` exactly when `T0` overflows, and a wrap at the top. The new
chaining value is that of the counter after the increment. -/
def Obligations.CounterCarriesOnce : Prop :=
  ∀ (c : Ctx) (block : List Byte) (inc : Nat), inc ≤ 64 →
    let t0 := (c.t.extractLsb' 0 32).toNat
    let t1 := (c.t.extractLsb' 32 32).toNat
    ((compress1 c block inc).t.extractLsb' 0 32).toNat = (t0 + inc) % 2 ^ 32 ∧
      ((compress1 c block inc).t.extractLsb' 32 32).toNat = (if 2 ^ 32 ≤ t0 + inc then t1 + 1 else t1) % 2 ^ 32 ∧
      (compress1 c block inc).h = compressH c.h (c.t + BitVec.ofNat 64 inc) c.f0 c.f1 block

/-- R126, R128, R129, with the IV of R121, the schedule of R122 and the round of R124 written out, which the spec supplies from general knowledge (log
entry 20): `COMPRESS1` folds the ten rounds, started from the chaining value, the IV, the counter after its increment and the flags,
into the chaining value, and leaves every other field of the context. -/
def Obligations.CompressFoldsTenRounds : Prop :=
  ∀ (c : Ctx) (block : List Byte) (inc : Nat),
    let iv : Vector Word 8 :=
      #v[0x6A09E667, 0xBB67AE85, 0x3C6EF372, 0xA54FF53A, 0x510E527F, 0x9B05688C, 0x1F83D9AB, 0x5BE0CD19]
    let round : Vector Word 16 → Vector Word 16 → Vector (Fin 16) 16 → Vector Word 16 := fun m v s =>
      let v := mixG v 0 4 8 12 m[s[0]] m[s[1]]
      let v := mixG v 1 5 9 13 m[s[2]] m[s[3]]
      let v := mixG v 2 6 10 14 m[s[4]] m[s[5]]
      let v := mixG v 3 7 11 15 m[s[6]] m[s[7]]
      let v := mixG v 0 5 10 15 m[s[8]] m[s[9]]
      let v := mixG v 1 6 11 12 m[s[10]] m[s[11]]
      let v := mixG v 2 7 8 13 m[s[12]] m[s[13]]
      mixG v 3 4 9 14 m[s[14]] m[s[15]]
    let schedule : List (Vector (Fin 16) 16) :=
      [#v[0, 1, 2, 3, 4, 5, 6, 7, 8, 9, 10, 11, 12, 13, 14, 15],
       #v[14, 10, 4, 8, 9, 15, 13, 6, 1, 12, 0, 2, 11, 7, 5, 3],
       #v[11, 8, 12, 0, 5, 2, 15, 13, 10, 14, 3, 6, 7, 1, 9, 4],
       #v[7, 9, 3, 1, 13, 12, 11, 14, 2, 6, 5, 10, 4, 0, 15, 8],
       #v[9, 0, 5, 7, 2, 4, 10, 15, 14, 1, 11, 12, 6, 8, 3, 13],
       #v[2, 12, 6, 10, 0, 11, 8, 3, 4, 13, 7, 5, 15, 14, 1, 9],
       #v[12, 5, 1, 15, 14, 13, 4, 10, 0, 7, 6, 3, 9, 2, 8, 11],
       #v[13, 11, 7, 14, 12, 1, 3, 9, 5, 0, 15, 4, 8, 6, 2, 10],
       #v[6, 15, 14, 9, 11, 3, 0, 8, 12, 2, 13, 7, 1, 4, 10, 5],
       #v[10, 2, 8, 4, 7, 6, 1, 5, 15, 11, 9, 14, 3, 12, 13, 0]]
    let t := c.t + BitVec.ofNat 64 inc
    let m : Vector Word 16 := Vector.ofFn fun i => le32 block (4 * i.val)
    let v0 : Vector Word 16 := #v[c.h[0], c.h[1], c.h[2], c.h[3], c.h[4], c.h[5], c.h[6], c.h[7], iv[0], iv[1], iv[2], iv[3],
      iv[4] ^^^ t.extractLsb' 0 32, iv[5] ^^^ t.extractLsb' 32 32, iv[6] ^^^ c.f0, iv[7] ^^^ c.f1]
    let v := schedule.foldl (round m) v0
    (∀ i : Fin 8, (compress1 c block inc).h[i] = c.h[i] ^^^ v[i.val]'(by omega) ^^^ v[i.val + 8]'(by omega)) ∧
      compress1 c block inc = { c with t := t, h := (compress1 c block inc).h }

/-- R125, and what the spec derives from it (R172): no block does nothing, one block is `COMPRESS1` of the first 64 bytes, and `n + k`
blocks in one call are the first `n` and then the next `k`. -/
def Obligations.BatchedCompressionIsSuccessive : Prop :=
  ∀ (c : Ctx) (src : List Byte) (n k inc : Nat),
    compress c src 0 inc = c ∧ compress c src 1 inc = compress1 c (src.take 64) inc ∧
    compress c src (n + k) inc = compress (compress c src n inc) (src.drop (64 * n)) k inc

/-! ## Finalisation and HMAC -/

/-- R11, R194: `LE32` and `LE32BYTES` take a word's bytes from bits 7:0 up, and byte `k` of the digest is byte `k mod 4` of chaining word
`k / 4`. -/
def Obligations.DigestIsLittleEndian : Prop :=
  (∀ w : Word, bytesOfWord w = [w.extractLsb' 0 8, w.extractLsb' 8 8, w.extractLsb' 16 8, w.extractLsb' 24 8]) ∧
  (∀ (b : List Byte) (i : Nat), le32 b i =
    (b.getD i 0).setWidth 32 ||| (b.getD (i + 1) 0).setWidth 32 <<< 8 ||| (b.getD (i + 2) 0).setWidth 32 <<< 16 |||
      (b.getD (i + 3) 0).setWidth 32 <<< 24) ∧
  ∀ (c : Ctx) (n : Nat) (k : Fin 32), k.val < n →
    (digest c n)[k.val]? = some ((c.h[k.val / 4]'(by omega)).extractLsb' (8 * (k.val % 4)) 8)

/-- Derived by the spec from R195 (R197): for one context, the digest of FINAL n1 is the first n1 bytes of the digest of FINAL n2, for n1 <= n2. -/
def Obligations.FinalTruncates : Prop :=
  ∀ (s t1 t2 : State) (n1 n2 : Nat), n1 ≤ n2 → exec (.final n1) s = .next t1 → exec (.final n2) s = .next t2 →
    t1.status.errcode = .ok → t2.status.errcode = .ok →
    ∀ k, k < n1 → t1.dmemByte ((s.arg 0).toNat + k) = t2.dmemByte ((s.arg 0).toNat + k)

/-- Derived by the spec from R211 to R214 (R215): the n1-byte MAC is the first n1 bytes of the n2-byte MAC, for n1 <= n2. -/
def Obligations.HmacTruncates : Prop :=
  ∀ (s t1 t2 : State) (n1 n2 : Nat), n1 ≤ n2 → exec (.hmac n1) s = .next t1 → exec (.hmac n2) s = .next t2 →
    t1.status.errcode = .ok → t2.status.errcode = .ok →
    ∀ k, k < n1 → t1.dmemByte ((s.arg 4).toNat + k) = t2.dmemByte ((s.arg 4).toNat + k)

/-- Derived by the spec from R211 (R215): a key and the same key followed by zero bytes give the same key block as long as both have at most 64 bytes. -/
def Obligations.ZeroPaddedKeysCoincide : Prop :=
  ∀ (key : List Byte) (n : Nat), key.length + n ≤ 64 → kblock (key ++ List.replicate n 0) = kblock key

/-! ## The host's interface -/

/-- R32, R230: STATUS, bit by bit, and the number of each error code. -/
def Obligations.StatusWordLayout : Prop :=
  ∀ s : State,
    s.statusWord.getLsbD 0 = s.status.busy ∧ s.statusWord.getLsbD 1 = s.status.done ∧
    s.statusWord.getLsbD 2 = (s.status.errcode != .ok) ∧ s.statusWord.getLsbD 3 = s.status.ovr ∧
    s.statusWord.getLsbD 4 = s.status.ready ∧ s.statusWord.getLsbD 5 = s.status.stfail ∧
    s.statusWord.getLsbD 6 = s.ctx.valid ∧ s.statusWord.getLsbD 7 = s.ctx.lastNode ∧
    s.statusWord.extractLsb' 8 8 = s.status.errcode.code ∧ s.statusWord.extractLsb' 16 16 = 0 ∧
    s.status.errcode.code.toNat ≤ 6 ∧
    ErrCode.ok.code = 0 ∧ ErrCode.illegal.code = 1 ∧ ErrCode.state.code = 2 ∧ ErrCode.outlen.code = 3 ∧
    ErrCode.keylen.code = 4 ∧ ErrCode.range.code = 5 ∧ ErrCode.unavail.code = 6

/-- R66, R67: the accesses that end in a bus error are exactly those R66 does not accept; every other access completes. -/
def Obligations.BusErrorExactlyOnUnacceptedAccess : Prop :=
  ∀ (s : State) (rest : List Input) (off : BitVec 16) (w : Width) (v : Word) (a : Access),
    (a = .read off w ∨ a = .write off w v) → s.HostTurn (.access a) rest →
    (¬accepted off.toNat w → step s = .fault (.busError a)) ∧ (accepted off.toNat w → ∃ t, step s = .next t)

/-- R30 to R35, R65, R272: a 32-bit read of the register region returns the register at its offset, 0 at a reserved one, and 0 for the
state view while BUSY = 1; it changes nothing but the data on the bus (R71), which the model holds in `rdata` (log entry 5). -/
def Obligations.RegisterReadReturnsItsValue : Prop :=
  ∀ (s : State) (rest : List Input) (off : BitVec 16), off.toNat < 0x1000 → off.toNat % 4 = 0 →
    s.HostTurn (.access (.read off .w32)) rest →
    step s = .next { s with inputs := rest, rdata := some (registerValue s off.toNat) }

/-- R65, R68, R272: a read of the DMEM window returns its bytes little-endian, 0 while BUSY = 1, and a read past DMEM returns 0; it
changes nothing but the data on the bus (R71), which the model holds in `rdata` (log entry 5). The zeros above the bytes of a narrow
read are the model's choice, not the spec's (log entry 15). -/
def Obligations.WindowReadIsLittleEndian : Prop :=
  ∀ (s : State) (rest : List Input) (off : BitVec 16) (w : Width), 0x1000 ≤ off.toNat → accepted off.toNat w →
    s.HostTurn (.access (.read off w)) rest →
    let a := off.toNat - 0x1000
    let byte := fun k => if a < s.cfg.dmemSize ∧ s.status.busy = false ∧ k < w.bytes then s.dmemByte (a + k) else 0
    step s = .next { s with inputs := rest, rdata := some (byte 3 ++ byte 2 ++ byte 1 ++ byte 0) }

/-- R68, R69, R71: an accepted write to the DMEM window while idle stores its bytes little-endian and changes nothing else. -/
def Obligations.WindowWriteIsLittleEndian : Prop :=
  ∀ (s : State) (rest : List Input) (off : BitVec 16) (w : Width) (v : Word), 0x1000 ≤ off.toNat →
    off.toNat < 0x1000 + s.cfg.dmemSize → accepted off.toNat w → s.status.busy = false →
    s.HostTurn (.access (.write off w v)) rest →
    ∃ t, step s = .next t ∧ t = { s with inputs := rest, mem := t.mem } ∧
      ∀ a, t.dmemByte a =
        if off.toNat ≤ 0x1000 + a ∧ 0x1000 + a < off.toNat + w.bytes then v.extractLsb' (8 * (0x1000 + a - off.toNat)) 8
        else s.dmemByte a

/-- R33, R34: while idle, a write to CMD is accepted and a write to ARGi stores its value; nothing else changes. -/
def Obligations.IdleRegisterWritesTakeEffect : Prop :=
  ∀ (s : State) (rest : List Input) (v : Word), s.status.busy = false →
    (s.HostTurn (.access (.write 0x00C .w32 v)) rest →
      step s = .next { s with inputs := rest, pcmd := v,
                              status := { s.status with busy := true, done := false, errcode := .ok } }) ∧
    ∀ i : Fin 5, s.HostTurn (.access (.write (BitVec.ofNat 16 (0x010 + 4 * i.val)) .w32 v)) rest →
      step s = .next { s with inputs := rest, args := s.args.set i v }

/-- R271: while BUSY = 1 a write to CMD, to an ARG register or to the DMEM window is dropped and sets OVR; of a write to CTRL with
SRST = 1 only the IE bit applies, and it sets OVR. A write to STATUS, and one to CTRL with SRST = 0, still take effect; one to an
ignored offset sets nothing. -/
def Obligations.BusyWritesAreDropped : Prop :=
  ∀ (s : State) (rest : List Input) (off : BitVec 16) (w : Width) (v : Word), s.status.busy = true → accepted off.toNat w →
    s.HostTurn (.access (.write off w v)) rest →
    ((0x00C ≤ off.toNat ∧ off.toNat < 0x024) ∨ (0x1000 ≤ off.toNat ∧ off.toNat < 0x1000 + s.cfg.dmemSize) →
      step s = .next { s with inputs := rest, status := { s.status with ovr := true } }) ∧
    (off.toNat = 0x004 → v.getLsbD 1 = true →
      step s = .next { s with inputs := rest, ie := v.getLsbD 0, status := { s.status with ovr := true } }) ∧
    (off.toNat = 0x008 →
      step s = .next { s with inputs := rest, status := { s.status with
        done := s.status.done && !v.getLsbD 1, ovr := s.status.ovr && !v.getLsbD 3 } }) ∧
    (off.toNat = 0x004 → v.getLsbD 1 = false → step s = .next { s with inputs := rest, ie := v.getLsbD 0 }) ∧
    (ignoresWrites off.toNat → step s = .next { s with inputs := rest })

/-- R65, R71: writes to ID, the state view, reserved offsets and offsets past DMEM change nothing, busy or not. That one past DMEM sets
no OVR while BUSY = 1 is the model's reading, not the spec's words (log entry 10). -/
def Obligations.IgnoredWritesChangeNothing : Prop :=
  ∀ (s : State) (rest : List Input) (off : BitVec 16) (w : Width) (v : Word), accepted off.toNat w →
    (ignoresWrites off.toNat ∨ 0x1000 + s.cfg.dmemSize ≤ off.toNat) →
    s.HostTurn (.access (.write off w v)) rest → step s = .next { s with inputs := rest }

/-- R31, R32: a write to STATUS clears DONE by bit 1 and OVR by bit 3 and changes nothing else; a write to CTRL with SRST = 0 writes IE
alone; both apply while BUSY = 1 too. -/
def Obligations.StatusAndControlWrites : Prop :=
  ∀ (s : State) (rest : List Input) (v : Word),
    (s.HostTurn (.access (.write 0x008 .w32 v)) rest →
      step s = .next { s with inputs := rest, status := { s.status with
        done := if v.getLsbD 1 then false else s.status.done, ovr := if v.getLsbD 3 then false else s.status.ovr } }) ∧
    (s.HostTurn (.access (.write 0x004 .w32 v)) rest → v.getLsbD 1 = false →
      step s = .next { s with inputs := rest, ie := v.getLsbD 0 })

/-- R264: a soft reset puts every field to its reset value but keeps DMEM, and CTRL.IE takes the written bit. While BUSY = 1 it is
dropped and sets OVR. -/
def Obligations.SoftResetKeepsDmem : Prop :=
  ∀ (s : State) (rest : List Input) (v : Word), v.getLsbD 1 = true → s.HostTurn (.access (.write 0x004 .w32 v)) rest →
    (s.status.busy = true →
      step s = .next { s with inputs := rest, ie := v.getLsbD 0, status := { s.status with ovr := true } }) ∧
    (s.status.busy = false → ∃ t, step s = .next t ∧
      t = { State.resetOf s.cfg with
        ie := v.getLsbD 0, mem := s.mem, epoch := s.epoch, selfTests := s.selfTests, inputs := rest, rdata := s.rdata } ∧
      ∀ a, t.dmemByte a = s.dmemByte a)

/-- R260, R262, R263: a hardware reset, during a command or not, puts every field to its reset value, and no byte of DMEM holds a
value afterwards: each reads as the free contents of the new reset (log entry 2). -/
def Obligations.HardwareResetForgetsDmem : Prop :=
  ∀ (s : State) (rest : List Input), s.HostTurn .hardwareReset rest →
    ∃ t, step s = .next t ∧
      t = { State.resetOf s.cfg with epoch := s.epoch + 1, selfTests := s.selfTests, inputs := rest, rdata := s.rdata } ∧
      ∀ a, t.dmemByte a = Config.dmemAtReset (s.epoch + 1) a

/-- R266: the self-test step sets READY or STFAIL by its draw (log entry 3), sets no DONE, and changes nothing else. That it keeps an
OVR set while it ran is the model's reading, not the spec's words (log entry 9). -/
def Obligations.SelfTestDecidesAvailability : Prop :=
  ∀ s : State, s.status.busy = true → s.status.ready = false → s.status.stfail = false →
    (∀ i ∈ s.inputs.head?, i.duringBusy = false) →
    step s = .next { s with selfTests := s.selfTests + 1, status := { s.status with
      busy := false, ready := !Config.selftestFail s.selfTests, stfail := Config.selftestFail s.selfTests } }

/-- R38, R241: the interrupt output is DONE and IE. It follows the completion of a command, with or without error. The acceptance of
the next command lowers it, and so does a write of STATUS with bit 1 set. Neither the completion of the self-test nor OVR raises
it. -/
def Obligations.InterruptFollowsCompletion : Prop :=
  (∀ s : State, s.irq = true ↔ s.status.done = true ∧ s.ie = true) ∧
  (∀ s t : State, s.Completing → step s = .next t → t.irq = s.ie) ∧
  (∀ (s t : State) (rest : List Input) (v : Word), s.status.busy = false →
    s.HostTurn (.access (.write 0x00C .w32 v)) rest → step s = .next t → t.irq = false) ∧
  (∀ (s t : State) (rest : List Input) (v : Word), v.getLsbD 1 = true →
    s.HostTurn (.access (.write 0x008 .w32 v)) rest → step s = .next t → t.irq = false) ∧
  ∀ s : State, s.selfTest.irq = s.irq ∧ s.dropWrite.irq = s.irq

/-! ## Reset and the invariant -/

/-- R40: the state after reset, in every build. Each byte of DMEM is free after a hardware reset (log entry 2) and as before after a
soft one. -/
def Obligations.ResetValues : Prop :=
  ∀ cfg : Config,
    let s := State.resetOf cfg
    (∀ i : Fin 8, s.ctx.h[i] = 0) ∧ s.ctx.t = 0 ∧ s.ctx.f0 = 0 ∧ s.ctx.f1 = 0 ∧ (∀ i : Fin 64, s.ctx.buf[i] = 0) ∧
      s.ctx.buflen = 0 ∧ s.ctx.lastNode = false ∧ s.ctx.valid = false ∧ (∀ i : Fin 5, s.arg i = 0) ∧ s.pcmd = 0 ∧
      s.hidden = Hidden.zero ∧ s.readReg .id = 0x42325301 ∧ s.ctrlWord = 0 ∧ s.irq = false ∧
      (∀ a, s.dmemByte a = Config.dmemAtReset 0 a) ∧ s.status.busy = cfg.selftestPresent ∧
      s.statusWord = (if cfg.selftestPresent then 0x00000001 else 0x00000010) ∧
      ∀ (u : State) (a : Nat), u.softReset.dmemByte a = u.dmemByte a

/-- The invariant holds after reset, in every build R9 allows. -/
def Obligations.ResetMeetsInvariant : Prop := ∀ cfg : Config, cfg.wf → (State.resetOf cfg).Inv

/-- Every step keeps the invariant (R22, R23, R24, R27, R28, R29, R32, R60, R173, R266): the context is legal between commands and
erased when invalid, the hidden stores are zero, the status bits are consistent, and DMEM is in canonical form. -/
def Obligations.StepKeepsInvariant : Prop := ∀ s t : State, s.Inv → step s = .next t → t.Inv

/-! ## The build (R9) -/

/-- R131, R267: no step changes the build, and whether the build has an alternative datapath (ACCEL) changes nothing that a step does:
two builds that differ in it alone go from one state to one state, or stop in one fault. -/
def Obligations.DatapathChoiceIsUnobservable : Prop :=
  ∀ (s : State) (b : Bool),
    let refit : State → State := fun u => { u with cfg := { u.cfg with accel := b } }
    (∀ t, step s = .next t → t.cfg = s.cfg ∧ step (refit s) = .next (refit t)) ∧
      ∀ f, step s = .fault f → step (refit s) = .fault f
end

