-- ==== Sys2Proof/Laws/Memory.lean ====
section
/-! SUPPORT. What the memory operations do: a read after a write, the canonical form, and the bounds of DMEM. -/

namespace Sys2Proof.Machine

@[simp] theorem Memory.read?_nil (a : Nat) : Memory.read? [] a = none := rfl

/-- A byte reads back where it was written, and every other address reads as before. -/
@[simp] theorem Memory.read?_write (m : Memory) (a a' : Nat) (b : Byte) :
    Memory.read? (Memory.write m a b) a' = if a' = a then some b else Memory.read? m a' := by
  induction m with
  | nil => simp [Memory.write, Memory.read?]
  | cons c m ih =>
    obtain ⟨k, v⟩ := c
    by_cases hlt : a < k
    · simp [Memory.write, hlt, Memory.read?]
    · by_cases heq : a = k
      · subst heq
        by_cases h' : a' = a <;> simp [Memory.write, Memory.read?, h']
      · have hne : k ≠ a := fun h => heq h.symm
        by_cases h' : a' = k
        · subst h'
          simp [Memory.write, hlt, heq, Memory.read?, hne]
        · simp [Memory.write, hlt, heq, Memory.read?, h', ih]

/-- What a stored byte string reads back as, at every address. -/
theorem Memory.read?_writeBytes (m : Memory) (a : Nat) (bs : List Byte) (a' : Nat) :
    Memory.read? (Memory.writeBytes m a bs) a' =
      if a ≤ a' ∧ a' < a + bs.length then some (byteAt bs (a' - a)) else Memory.read? m a' := by
  induction bs generalizing m a with
  | nil =>
    have : ¬(a ≤ a' ∧ a' < a + ([] : List Byte).length) := by simp
    rw [if_neg this]; rfl
  | cons b bs ih =>
    rw [Memory.writeBytes, ih, Memory.read?_write]
    by_cases h1 : a + 1 ≤ a' ∧ a' < a + 1 + bs.length
    · have h2 : a ≤ a' ∧ a' < a + (b :: bs).length := by simp only [List.length_cons]; omega
      have h3 : a' - a = (a' - (a + 1)) + 1 := by omega
      rw [if_pos h1, if_pos h2, h3]
      simp [byteAt]
    · rw [if_neg h1]
      by_cases h4 : a' = a
      · subst h4
        simp [byteAt]
      · have h2 : ¬(a ≤ a' ∧ a' < a + (b :: bs).length) := by simp only [List.length_cons]; omega
        rw [if_neg h4, if_neg h2]

/-- Every address of a canonical memory lies above `k`, when the first one does. -/
theorem Memory.wf_cons (k : Nat) (v : Byte) (m : Memory) :
    Memory.wf ((k, v) :: m) = true ↔ (∀ k' v' m', m = (k', v') :: m' → k < k') ∧ Memory.wf m = true := by
  cases m with
  | nil => simp [Memory.wf]
  | cons c m =>
    obtain ⟨k', v'⟩ := c
    simp only [Memory.wf, Bool.and_eq_true, decide_eq_true_eq, List.cons.injEq, Prod.mk.injEq]
    constructor
    · rintro ⟨h, hm⟩
      exact ⟨fun _ _ _ e => e.1.1 ▸ h, hm⟩
    · rintro ⟨h, hm⟩
      exact ⟨h k' v' m ⟨⟨rfl, rfl⟩, rfl⟩, hm⟩

/-- The first address of a memory after a write is the written one or the old first one. -/
theorem Memory.write_head (m : Memory) (a : Nat) (b : Byte) :
    ∃ k v m', Memory.write m a b = (k, v) :: m' ∧ (k = a ∨ ∃ v' m'', m = (k, v') :: m'') := by
  cases m with
  | nil => exact ⟨a, b, [], rfl, .inl rfl⟩
  | cons c m =>
    obtain ⟨k, v⟩ := c
    by_cases hlt : a < k
    · exact ⟨a, b, (k, v) :: m, by simp [Memory.write, hlt], .inl rfl⟩
    · by_cases heq : a = k
      · exact ⟨a, b, m, by simp [Memory.write, heq], .inl rfl⟩
      · exact ⟨k, v, Memory.write m a b, by simp [Memory.write, hlt, heq], .inr ⟨v, m, rfl⟩⟩

/-- A write keeps the canonical form. -/
theorem Memory.wf_write (m : Memory) (a : Nat) (b : Byte) (h : Memory.wf m = true) : Memory.wf (Memory.write m a b) = true := by
  induction m with
  | nil => rfl
  | cons c m ih =>
    obtain ⟨k, v⟩ := c
    obtain ⟨hk, hm⟩ := (Memory.wf_cons k v m).1 h
    by_cases hlt : a < k
    · simp only [Memory.write, hlt, if_true]
      refine (Memory.wf_cons _ _ _).2 ⟨fun k' v' m' e => ?_, h⟩
      obtain ⟨⟨rfl, rfl⟩, rfl⟩ : ((k, v) = (k', v')) ∧ m = m' := by simpa using e
      exact hlt
    · by_cases heq : a = k
      · subst heq
        simp only [Memory.write, hlt, if_false, if_true]
        exact (Memory.wf_cons _ _ _).2 ⟨hk, hm⟩
      · simp only [Memory.write, hlt, heq, if_false]
        refine (Memory.wf_cons _ _ _).2 ⟨fun k' v' m' e => ?_, ih hm⟩
        obtain ⟨k'', v'', m'', he, hh⟩ := Memory.write_head m a b
        rw [he] at e
        obtain ⟨⟨rfl, rfl⟩, rfl⟩ : ((k'', v'') = (k', v')) ∧ m'' = m' := by simpa using e
        rcases hh with rfl | ⟨v', m', rfl⟩
        · omega
        · exact hk _ _ _ rfl

/-- Storing a byte string keeps the canonical form. -/
theorem Memory.wf_writeBytes (m : Memory) (a : Nat) (bs : List Byte) (h : Memory.wf m = true) :
    Memory.wf (Memory.writeBytes m a bs) = true := by
  induction bs generalizing m a with
  | nil => exact h
  | cons b bs ih => exact ih _ _ (Memory.wf_write m a b h)

/-- A write inside DMEM stays inside it. -/
theorem Memory.within_write (m : Memory) (size a : Nat) (b : Byte) (h : Memory.within m size = true) (ha : a < size) :
    Memory.within (Memory.write m a b) size = true := by
  induction m with
  | nil => simp [Memory.write, Memory.within, ha]
  | cons c m ih =>
    obtain ⟨k, v⟩ := c
    simp only [Memory.within, List.all_cons, Bool.and_eq_true, decide_eq_true_eq] at h ih ⊢
    by_cases hlt : a < k
    · simp [Memory.write, hlt, ha, h.1, h.2]
    · by_cases heq : a = k
      · simp [Memory.write, heq, h.1, h.2]
      · simp [Memory.write, hlt, heq, h.1, ih h.2]

/-- Storing a byte string inside DMEM stays inside it. -/
theorem Memory.within_writeBytes (m : Memory) (size a : Nat) (bs : List Byte) (h : Memory.within m size = true)
    (ha : bs.length = 0 ∨ a + bs.length ≤ size) : Memory.within (Memory.writeBytes m a bs) size = true := by
  induction bs generalizing m a with
  | nil => exact h
  | cons b bs ih =>
    simp only [List.length_cons] at ha
    exact ih _ _ (Memory.within_write m size a b h (by omega)) (by omega)

end Sys2Proof.Machine
end

