-- ==== Sys2Proof/Laws/State.lean ====
section
/-! SUPPORT. One lemma per field per update: what each update of the state writes and what it leaves, so that no later proof unfolds a
record. -/

namespace Sys2Proof.Machine

/-! ## Acceptance (R33) -/

@[simp] theorem State.acceptCommand_cfg (s : State) (w : Word) : (s.acceptCommand w).cfg = s.cfg := rfl
@[simp] theorem State.acceptCommand_ctx (s : State) (w : Word) : (s.acceptCommand w).ctx = s.ctx := rfl
@[simp] theorem State.acceptCommand_hidden (s : State) (w : Word) : (s.acceptCommand w).hidden = s.hidden := rfl
@[simp] theorem State.acceptCommand_args (s : State) (w : Word) : (s.acceptCommand w).args = s.args := rfl
@[simp] theorem State.acceptCommand_ie (s : State) (w : Word) : (s.acceptCommand w).ie = s.ie := rfl
@[simp] theorem State.acceptCommand_status (s : State) (w : Word) : (s.acceptCommand w).status = s.status.accepted := rfl
@[simp] theorem State.acceptCommand_pcmd (s : State) (w : Word) : (s.acceptCommand w).pcmd = w := rfl
@[simp] theorem State.acceptCommand_mem (s : State) (w : Word) : (s.acceptCommand w).mem = s.mem := rfl
@[simp] theorem State.acceptCommand_epoch (s : State) (w : Word) : (s.acceptCommand w).epoch = s.epoch := rfl
@[simp] theorem State.acceptCommand_selfTests (s : State) (w : Word) : (s.acceptCommand w).selfTests = s.selfTests := rfl
@[simp] theorem State.acceptCommand_inputs (s : State) (w : Word) : (s.acceptCommand w).inputs = s.inputs := rfl
@[simp] theorem State.acceptCommand_rdata (s : State) (w : Word) : (s.acceptCommand w).rdata = s.rdata := rfl

/-! ## Completion (R232) -/

@[simp] theorem State.complete_cfg (s : State) (e : ErrCode) : (s.complete e).cfg = s.cfg := rfl
@[simp] theorem State.complete_ctx (s : State) (e : ErrCode) : (s.complete e).ctx = s.ctx := rfl
@[simp] theorem State.complete_hidden (s : State) (e : ErrCode) : (s.complete e).hidden = s.hidden := rfl
@[simp] theorem State.complete_args (s : State) (e : ErrCode) : (s.complete e).args = s.args := rfl
@[simp] theorem State.complete_ie (s : State) (e : ErrCode) : (s.complete e).ie = s.ie := rfl
@[simp] theorem State.complete_status (s : State) (e : ErrCode) : (s.complete e).status = s.status.completed e := rfl
@[simp] theorem State.complete_pcmd (s : State) (e : ErrCode) : (s.complete e).pcmd = s.pcmd := rfl
@[simp] theorem State.complete_mem (s : State) (e : ErrCode) : (s.complete e).mem = s.mem := rfl
@[simp] theorem State.complete_epoch (s : State) (e : ErrCode) : (s.complete e).epoch = s.epoch := rfl
@[simp] theorem State.complete_selfTests (s : State) (e : ErrCode) : (s.complete e).selfTests = s.selfTests := rfl
@[simp] theorem State.complete_inputs (s : State) (e : ErrCode) : (s.complete e).inputs = s.inputs := rfl
@[simp] theorem State.complete_rdata (s : State) (e : ErrCode) : (s.complete e).rdata = s.rdata := rfl

/-! ## A dropped write (R271) -/

@[simp] theorem State.dropWrite_cfg (s : State) : (s.dropWrite).cfg = s.cfg := rfl
@[simp] theorem State.dropWrite_ctx (s : State) : (s.dropWrite).ctx = s.ctx := rfl
@[simp] theorem State.dropWrite_hidden (s : State) : (s.dropWrite).hidden = s.hidden := rfl
@[simp] theorem State.dropWrite_args (s : State) : (s.dropWrite).args = s.args := rfl
@[simp] theorem State.dropWrite_ie (s : State) : (s.dropWrite).ie = s.ie := rfl
@[simp] theorem State.dropWrite_status (s : State) : (s.dropWrite).status = s.status.overrun := rfl
@[simp] theorem State.dropWrite_pcmd (s : State) : (s.dropWrite).pcmd = s.pcmd := rfl
@[simp] theorem State.dropWrite_mem (s : State) : (s.dropWrite).mem = s.mem := rfl
@[simp] theorem State.dropWrite_epoch (s : State) : (s.dropWrite).epoch = s.epoch := rfl
@[simp] theorem State.dropWrite_selfTests (s : State) : (s.dropWrite).selfTests = s.selfTests := rfl
@[simp] theorem State.dropWrite_inputs (s : State) : (s.dropWrite).inputs = s.inputs := rfl
@[simp] theorem State.dropWrite_rdata (s : State) : (s.dropWrite).rdata = s.rdata := rfl

/-! ## A write to STATUS (R32) -/

@[simp] theorem State.acknowledge_cfg (s : State) (v : Word) : (s.acknowledge v).cfg = s.cfg := rfl
@[simp] theorem State.acknowledge_ctx (s : State) (v : Word) : (s.acknowledge v).ctx = s.ctx := rfl
@[simp] theorem State.acknowledge_hidden (s : State) (v : Word) : (s.acknowledge v).hidden = s.hidden := rfl
@[simp] theorem State.acknowledge_args (s : State) (v : Word) : (s.acknowledge v).args = s.args := rfl
@[simp] theorem State.acknowledge_ie (s : State) (v : Word) : (s.acknowledge v).ie = s.ie := rfl
@[simp] theorem State.acknowledge_status (s : State) (v : Word) : (s.acknowledge v).status = s.status.acknowledge v := rfl
@[simp] theorem State.acknowledge_pcmd (s : State) (v : Word) : (s.acknowledge v).pcmd = s.pcmd := rfl
@[simp] theorem State.acknowledge_mem (s : State) (v : Word) : (s.acknowledge v).mem = s.mem := rfl
@[simp] theorem State.acknowledge_epoch (s : State) (v : Word) : (s.acknowledge v).epoch = s.epoch := rfl
@[simp] theorem State.acknowledge_selfTests (s : State) (v : Word) : (s.acknowledge v).selfTests = s.selfTests := rfl
@[simp] theorem State.acknowledge_inputs (s : State) (v : Word) : (s.acknowledge v).inputs = s.inputs := rfl
@[simp] theorem State.acknowledge_rdata (s : State) (v : Word) : (s.acknowledge v).rdata = s.rdata := rfl

/-! ## A store to DMEM (R12) -/

@[simp] theorem State.memWrite_cfg (s : State) (a : Nat) (b : List Byte) : (s.memWrite a b).cfg = s.cfg := rfl
@[simp] theorem State.memWrite_ctx (s : State) (a : Nat) (b : List Byte) : (s.memWrite a b).ctx = s.ctx := rfl
@[simp] theorem State.memWrite_hidden (s : State) (a : Nat) (b : List Byte) : (s.memWrite a b).hidden = s.hidden := rfl
@[simp] theorem State.memWrite_args (s : State) (a : Nat) (b : List Byte) : (s.memWrite a b).args = s.args := rfl
@[simp] theorem State.memWrite_ie (s : State) (a : Nat) (b : List Byte) : (s.memWrite a b).ie = s.ie := rfl
@[simp] theorem State.memWrite_status (s : State) (a : Nat) (b : List Byte) : (s.memWrite a b).status = s.status := rfl
@[simp] theorem State.memWrite_pcmd (s : State) (a : Nat) (b : List Byte) : (s.memWrite a b).pcmd = s.pcmd := rfl
@[simp] theorem State.memWrite_mem (s : State) (a : Nat) (b : List Byte) : (s.memWrite a b).mem = Memory.writeBytes s.mem a b := rfl
@[simp] theorem State.memWrite_epoch (s : State) (a : Nat) (b : List Byte) : (s.memWrite a b).epoch = s.epoch := rfl
@[simp] theorem State.memWrite_selfTests (s : State) (a : Nat) (b : List Byte) : (s.memWrite a b).selfTests = s.selfTests := rfl
@[simp] theorem State.memWrite_inputs (s : State) (a : Nat) (b : List Byte) : (s.memWrite a b).inputs = s.inputs := rfl
@[simp] theorem State.memWrite_rdata (s : State) (a : Nat) (b : List Byte) : (s.memWrite a b).rdata = s.rdata := rfl

/-! ## The self-test (R266) -/

@[simp] theorem State.selfTest_cfg (s : State) : (s.selfTest).cfg = s.cfg := rfl
@[simp] theorem State.selfTest_ctx (s : State) : (s.selfTest).ctx = s.ctx := rfl
@[simp] theorem State.selfTest_hidden (s : State) : (s.selfTest).hidden = s.hidden := rfl
@[simp] theorem State.selfTest_args (s : State) : (s.selfTest).args = s.args := rfl
@[simp] theorem State.selfTest_ie (s : State) : (s.selfTest).ie = s.ie := rfl
@[simp] theorem State.selfTest_status (s : State) : (s.selfTest).status = s.status.selfTested (Config.selftestFail s.selfTests) := rfl
@[simp] theorem State.selfTest_pcmd (s : State) : (s.selfTest).pcmd = s.pcmd := rfl
@[simp] theorem State.selfTest_mem (s : State) : (s.selfTest).mem = s.mem := rfl
@[simp] theorem State.selfTest_epoch (s : State) : (s.selfTest).epoch = s.epoch := rfl
@[simp] theorem State.selfTest_selfTests (s : State) : (s.selfTest).selfTests = s.selfTests + 1 := rfl
@[simp] theorem State.selfTest_inputs (s : State) : (s.selfTest).inputs = s.inputs := rfl
@[simp] theorem State.selfTest_rdata (s : State) : (s.selfTest).rdata = s.rdata := rfl

/-! ## Hardware reset (R260) -/

@[simp] theorem State.hardwareReset_cfg (s : State) : (s.hardwareReset).cfg = s.cfg := rfl
@[simp] theorem State.hardwareReset_ctx (s : State) : (s.hardwareReset).ctx = Ctx.erased := rfl
@[simp] theorem State.hardwareReset_hidden (s : State) : (s.hardwareReset).hidden = Hidden.zero := rfl
@[simp] theorem State.hardwareReset_args (s : State) : (s.hardwareReset).args = Vector.replicate 5 0 := rfl
@[simp] theorem State.hardwareReset_ie (s : State) : (s.hardwareReset).ie = false := rfl
@[simp] theorem State.hardwareReset_status (s : State) : (s.hardwareReset).status = Status.afterReset s.cfg := rfl
@[simp] theorem State.hardwareReset_pcmd (s : State) : (s.hardwareReset).pcmd = 0 := rfl
@[simp] theorem State.hardwareReset_mem (s : State) : (s.hardwareReset).mem = [] := rfl
@[simp] theorem State.hardwareReset_epoch (s : State) : (s.hardwareReset).epoch = s.epoch + 1 := rfl
@[simp] theorem State.hardwareReset_selfTests (s : State) : (s.hardwareReset).selfTests = s.selfTests := rfl
@[simp] theorem State.hardwareReset_inputs (s : State) : (s.hardwareReset).inputs = s.inputs := rfl
@[simp] theorem State.hardwareReset_rdata (s : State) : (s.hardwareReset).rdata = s.rdata := rfl

/-! ## Soft reset (R264) -/

@[simp] theorem State.softReset_cfg (s : State) : (s.softReset).cfg = s.cfg := rfl
@[simp] theorem State.softReset_ctx (s : State) : (s.softReset).ctx = Ctx.erased := rfl
@[simp] theorem State.softReset_hidden (s : State) : (s.softReset).hidden = Hidden.zero := rfl
@[simp] theorem State.softReset_args (s : State) : (s.softReset).args = Vector.replicate 5 0 := rfl
@[simp] theorem State.softReset_ie (s : State) : (s.softReset).ie = s.ie := rfl
@[simp] theorem State.softReset_status (s : State) : (s.softReset).status = Status.afterReset s.cfg := rfl
@[simp] theorem State.softReset_pcmd (s : State) : (s.softReset).pcmd = 0 := rfl
@[simp] theorem State.softReset_mem (s : State) : (s.softReset).mem = s.mem := rfl
@[simp] theorem State.softReset_epoch (s : State) : (s.softReset).epoch = s.epoch := rfl
@[simp] theorem State.softReset_selfTests (s : State) : (s.softReset).selfTests = s.selfTests := rfl
@[simp] theorem State.softReset_inputs (s : State) : (s.softReset).inputs = s.inputs := rfl
@[simp] theorem State.softReset_rdata (s : State) : (s.softReset).rdata = s.rdata := rfl

/-! ## STATUS on acceptance -/

@[simp] theorem Status.accepted_busy (st : Status) : (st.accepted).busy = true := rfl
@[simp] theorem Status.accepted_done (st : Status) : (st.accepted).done = false := rfl
@[simp] theorem Status.accepted_ovr (st : Status) : (st.accepted).ovr = st.ovr := rfl
@[simp] theorem Status.accepted_ready (st : Status) : (st.accepted).ready = st.ready := rfl
@[simp] theorem Status.accepted_stfail (st : Status) : (st.accepted).stfail = st.stfail := rfl
@[simp] theorem Status.accepted_errcode (st : Status) : (st.accepted).errcode = .ok := rfl

/-! ## STATUS on completion -/

@[simp] theorem Status.completed_busy (st : Status) (e : ErrCode) : (st.completed e).busy = false := rfl
@[simp] theorem Status.completed_done (st : Status) (e : ErrCode) : (st.completed e).done = true := rfl
@[simp] theorem Status.completed_ovr (st : Status) (e : ErrCode) : (st.completed e).ovr = st.ovr := rfl
@[simp] theorem Status.completed_ready (st : Status) (e : ErrCode) : (st.completed e).ready = st.ready := rfl
@[simp] theorem Status.completed_stfail (st : Status) (e : ErrCode) : (st.completed e).stfail = st.stfail := rfl
@[simp] theorem Status.completed_errcode (st : Status) (e : ErrCode) : (st.completed e).errcode = e := rfl

/-! ## STATUS on a dropped write -/

@[simp] theorem Status.overrun_busy (st : Status) : (st.overrun).busy = st.busy := rfl
@[simp] theorem Status.overrun_done (st : Status) : (st.overrun).done = st.done := rfl
@[simp] theorem Status.overrun_ovr (st : Status) : (st.overrun).ovr = true := rfl
@[simp] theorem Status.overrun_ready (st : Status) : (st.overrun).ready = st.ready := rfl
@[simp] theorem Status.overrun_stfail (st : Status) : (st.overrun).stfail = st.stfail := rfl
@[simp] theorem Status.overrun_errcode (st : Status) : (st.overrun).errcode = st.errcode := rfl

/-! ## STATUS when written -/

@[simp] theorem Status.acknowledge_busy (st : Status) (v : Word) : (st.acknowledge v).busy = st.busy := rfl
@[simp] theorem Status.acknowledge_done (st : Status) (v : Word) : (st.acknowledge v).done = (st.done && !v.getLsbD 1) := rfl
@[simp] theorem Status.acknowledge_ovr (st : Status) (v : Word) : (st.acknowledge v).ovr = (st.ovr && !v.getLsbD 3) := rfl
@[simp] theorem Status.acknowledge_ready (st : Status) (v : Word) : (st.acknowledge v).ready = st.ready := rfl
@[simp] theorem Status.acknowledge_stfail (st : Status) (v : Word) : (st.acknowledge v).stfail = st.stfail := rfl
@[simp] theorem Status.acknowledge_errcode (st : Status) (v : Word) : (st.acknowledge v).errcode = st.errcode := rfl

/-! ## STATUS when the self-test completes -/

@[simp] theorem Status.selfTested_busy (st : Status) (b : Bool) : (st.selfTested b).busy = false := rfl
@[simp] theorem Status.selfTested_done (st : Status) (b : Bool) : (st.selfTested b).done = st.done := rfl
@[simp] theorem Status.selfTested_ovr (st : Status) (b : Bool) : (st.selfTested b).ovr = st.ovr := rfl
@[simp] theorem Status.selfTested_ready (st : Status) (b : Bool) : (st.selfTested b).ready = (!b) := rfl
@[simp] theorem Status.selfTested_stfail (st : Status) (b : Bool) : (st.selfTested b).stfail = b := rfl
@[simp] theorem Status.selfTested_errcode (st : Status) (b : Bool) : (st.selfTested b).errcode = st.errcode := rfl

/-! ## The erased context (R28) -/

@[simp] theorem Ctx.erased_h : (Ctx.erased).h = Vector.replicate 8 0 := rfl
@[simp] theorem Ctx.erased_t : (Ctx.erased).t = 0 := rfl
@[simp] theorem Ctx.erased_f0 : (Ctx.erased).f0 = 0 := rfl
@[simp] theorem Ctx.erased_f1 : (Ctx.erased).f1 = 0 := rfl
@[simp] theorem Ctx.erased_buf : (Ctx.erased).buf = Vector.replicate 64 0 := rfl
@[simp] theorem Ctx.erased_buflen : (Ctx.erased).buflen = 0 := rfl
@[simp] theorem Ctx.erased_lastNode : (Ctx.erased).lastNode = false := rfl
@[simp] theorem Ctx.erased_valid : (Ctx.erased).valid = false := rfl

end Sys2Proof.Machine
end

