-- ==== Sys2Proof/Laws/Ops.lean ====
section
/-! SUPPORT. What the shared operations do: reads and stores of DMEM, the checks, and the completion of a command. -/

namespace Sys2Proof.Machine

/-! ## DMEM -/

/-- A byte after a store: the stored byte inside the stored range, the old byte outside it. -/
theorem State.dmemByte_memWrite (s : State) (a : Nat) (b : List Byte) (a' : Nat) :
    (s.memWrite a b).dmemByte a' =
      if a ≤ a' ∧ a' < a + b.length then byteAt b (a' - a) else s.dmemByte a' := by
  simp only [State.dmemByte, State.memWrite_mem, State.memWrite_epoch, Memory.read?_writeBytes]
  split <;> rfl

/-- The byte a state reads depends on its memory and its reset count alone. -/
theorem State.dmemByte_congr {s t : State} (hm : s.mem = t.mem) (he : s.epoch = t.epoch) (a : Nat) :
    s.dmemByte a = t.dmemByte a := by simp only [State.dmemByte, hm, he]

/-- The bytes a state reads depend on its memory and its reset count alone. -/
theorem State.memRead_congr {s t : State} (hm : s.mem = t.mem) (he : s.epoch = t.epoch) (a n : Nat) :
    s.memRead a n = t.memRead a n := by
  induction n generalizing a with
  | zero => rfl
  | succ n ih => simp only [State.memRead, State.dmemByte_congr hm he, ih]

@[simp] theorem State.length_memRead (s : State) (a n : Nat) : (s.memRead a n).length = n := by
  induction n generalizing a with
  | zero => rfl
  | succ n ih => simp [State.memRead, ih]

/-- `MemRead(a, n)[k]` is `DMEM[a+k]` (R63). -/
theorem State.byteAt_memRead (s : State) (a n k : Nat) (h : k < n) : byteAt (s.memRead a n) k = s.dmemByte (a + k) := by
  induction n generalizing a k with
  | zero => omega
  | succ n ih =>
    cases k with
    | zero => simp [State.memRead, byteAt]
    | succ k =>
      have e := ih (a + 1) k (by omega)
      simp only [State.memRead, byteAt, List.getD_cons_succ] at e ⊢
      rw [e]; congr 1; omega

/-- `MemRead(a, n)` as the list of its bytes (R63). -/
theorem State.memRead_eq_ofFn (s : State) (a n : Nat) :
    s.memRead a n = List.ofFn fun k : Fin n => s.dmemByte (a + k.val) := by
  induction n generalizing a with
  | zero => rfl
  | succ n ih =>
    rw [State.memRead, ih, List.ofFn_succ]
    simp only [Fin.val_zero, Fin.val_succ, Nat.add_zero, Nat.add_assoc, Nat.add_comm 1]

/-! ## Checks and completion (R232, R240) -/

@[simp] theorem firstFailing_nil : firstFailing [] = .ok := rfl

@[simp] theorem firstFailing_cons (e : ErrCode) (passes : Bool) (rest : List (ErrCode × Bool)) :
    firstFailing ((e, passes) :: rest) = if passes then firstFailing rest else e := rfl

/-- The engine is unavailable: every command reports E_UNAVAIL (R237). -/
theorem State.checkAll_unavail {s : State} (h : s.status.stfail = true) (checks : List (ErrCode × Bool)) :
    s.checkAll checks = .unavail := by simp [State.checkAll, h]

/-- The engine is available: the command's own checks decide. -/
theorem State.checkAll_avail {s : State} (h : s.status.stfail = false) (checks : List (ErrCode × Bool)) :
    s.checkAll checks = firstFailing checks := by simp [State.checkAll, h]

/-- A command whose checks all pass takes its full effect and completes with E_OK. -/
theorem State.runCommand_ok {s : State} {checks : List (ErrCode × Bool)} (h : s.checkAll checks = .ok)
    (effect : State → State) : s.runCommand checks effect = (effect s).complete .ok := by simp [State.runCommand, h]

/-- A command with a failing check has no effect but its STATUS update (R232). -/
theorem State.runCommand_error {s : State} {checks : List (ErrCode × Bool)} {e : ErrCode} (h : s.checkAll checks = e)
    (he : e ≠ .ok) (effect : State → State) : s.runCommand checks effect = s.complete e := by
  simp [State.runCommand, h, he]

/-- A completed command is its effect or nothing, with the status completed: the two cases later proofs need. -/
theorem State.runCommand_cases (s : State) (checks : List (ErrCode × Bool)) (effect : State → State) :
    (s.checkAll checks = .ok ∧ s.runCommand checks effect = (effect s).complete .ok) ∨
      (s.checkAll checks ≠ .ok ∧ s.runCommand checks effect = s.complete (s.checkAll checks)) := by
  by_cases h : s.checkAll checks = .ok
  · exact .inl ⟨h, State.runCommand_ok h effect⟩
  · exact .inr ⟨h, State.runCommand_error rfl h effect⟩

@[simp] theorem legalLength_iff (n : Nat) : legalLength n = true ↔ 1 ≤ n ∧ n ≤ 32 := by simp [legalLength]

theorem legalLength_false_iff (n : Nat) : legalLength n = false ↔ badLength n := by
  simp [legalLength, badLength]; omega

@[simp] theorem validRange_iff (size a n : Nat) : validRange size a n = true ↔ n = 0 ∨ a + n ≤ size := by simp [validRange]

theorem validRange_false_iff (size a n : Nat) : validRange size a n = false ↔ badRange size (a, n) := by
  simp [validRange, badRange]

end Sys2Proof.Machine
end

