-- ==== Sys2Proof/Laws/Context.lean ====
section
/-! SUPPORT. What the operations on a context do: the buffer, the compression of blocks, `UPD` one block at a time, and `FIN`. -/

namespace Sys2Proof.Machine

/-! ## Byte strings -/

theorem byteAt_append_left {a b : List Byte} {i : Nat} (h : i < a.length) : byteAt (a ++ b) i = byteAt a i := by
  simp [byteAt, List.getD_eq_getElem?_getD, List.getElem?_append_left h]

theorem byteAt_append_right {a b : List Byte} {i : Nat} (h : a.length ≤ i) : byteAt (a ++ b) i = byteAt b (i - a.length) := by
  simp [byteAt, List.getD_eq_getElem?_getD, List.getElem?_append_right h]

@[simp] theorem byteAt_zeros (n i : Nat) : byteAt (zeros n) i = 0 := by
  simp only [byteAt, zeros, List.getD_eq_getElem?_getD, List.getElem?_replicate]
  split <;> rfl

@[simp] theorem length_zeros (n : Nat) : (zeros n).length = n := by simp [zeros]

@[simp] theorem length_param (n k : Nat) : (param n k).length = 32 := by simp [param]

/-- A serialised parameter block has 32 bytes (R151). -/
@[simp] theorem ParamBlock.length_bytes (p : ParamBlock) : p.bytes.length = 32 := by simp [ParamBlock.bytes, bytesOfWord]

/-- `PARAM(outlen, keylen)` is the serialised block of the sequential hash (R154). -/
theorem param_eq_sequential (outlen keylen : Nat) :
    param outlen keylen = (ParamBlock.sequential (BitVec.ofNat 8 outlen) (BitVec.ofNat 8 keylen)).bytes := by
  have h : zeros 28 = bytesOfWord 0 ++ bytesOfWord 0 ++
      [(0 : BitVec 16).extractLsb' 0 8, (0 : BitVec 16).extractLsb' 8 8, 0, 0] ++
      (Vector.replicate 8 (0 : Byte)).toList ++ (Vector.replicate 8 (0 : Byte)).toList := by decide +kernel
  simp only [param, h, ParamBlock.bytes, ParamBlock.sequential, List.append_assoc]

@[simp] theorem length_xorPad (b : List Byte) (p : Byte) : (xorPad b p).length = b.length := by simp [xorPad]

theorem length_leBytes (ws : List Word) : (leBytes ws).length = 4 * ws.length := by
  induction ws with
  | nil => rfl
  | cons w ws ih => simp only [leBytes, List.flatMap_cons, List.length_append, List.length_cons] at ih ⊢; simp [bytesOfWord]; omega

/-! ## The buffer -/

/-- Each byte of the buffer after a copy: the new byte inside the copied range, the old byte outside it. -/
theorem putBytes_getElem (buf : Vector Byte 64) (off : Nat) (d : List Byte) (k : Nat) (hk : k < 64) :
    (putBytes buf off d)[k] = if off ≤ k ∧ k < off + d.length then byteAt d (k - off) else buf[k] := by
  simp [putBytes]

@[simp] theorem putBytes_nil (buf : Vector Byte 64) (off : Nat) : putBytes buf off [] = buf := by
  refine Vector.ext fun k hk => ?_
  rw [putBytes_getElem, if_neg (by simp)]

/-- Two copies end to end are one copy of the two strings. -/
theorem putBytes_append (buf : Vector Byte 64) (off : Nat) (a b : List Byte) :
    putBytes (putBytes buf off a) (off + a.length) b = putBytes buf off (a ++ b) := by
  refine Vector.ext fun k hk => ?_
  simp only [putBytes_getElem, List.length_append]
  by_cases h1 : off + a.length ≤ k ∧ k < off + a.length + b.length
  · rw [if_pos h1, if_pos (by omega), byteAt_append_right (by omega), Nat.sub_sub]
  · rw [if_neg h1]
    by_cases h2 : off ≤ k ∧ k < off + a.length
    · rw [if_pos h2, if_pos (by omega), byteAt_append_left (by omega)]
    · rw [if_neg h2, if_neg (by omega)]

/-- A whole block copied to an empty buffer is the buffer's contents. -/
theorem toList_putBytes_block (buf : Vector Byte 64) (d : List Byte) (h : d.length = 64) : (putBytes buf 0 d).toList = d := by
  apply List.ext_getElem
  · simp [h]
  · intro i h1 h2
    have hi : i < 64 := by simpa using h1
    rw [Vector.getElem_toList, putBytes_getElem, if_pos (by omega)]
    simp [byteAt, List.getD_eq_getElem?_getD, h2]

/-! ## Mixing (R123) -/

/-- One pass, for distinct words: what it writes. -/
theorem mixPass_writes (v : Vector Word 16) {a b c d : Fin 16} (x : Word) (r1 r2 : Nat) (hab : a ≠ b) (hac : a ≠ c) (had : a ≠ d)
    (hbc : b ≠ c) (hbd : b ≠ d) (hcd : c ≠ d) :
    (mixPass v a b c d x r1 r2)[a] = v[a] + v[b] + x ∧
    (mixPass v a b c d x r1 r2)[d] = (v[d] ^^^ (v[a] + v[b] + x)).rotateRight r1 ∧
    (mixPass v a b c d x r1 r2)[c] = v[c] + (v[d] ^^^ (v[a] + v[b] + x)).rotateRight r1 ∧
    (mixPass v a b c d x r1 r2)[b] =
      (v[b] ^^^ (v[c] + (v[d] ^^^ (v[a] + v[b] + x)).rotateRight r1)).rotateRight r2 := by
  have e : ∀ {i j : Fin 16}, i ≠ j → i.val ≠ j.val := fun h h' => h (Fin.ext h')
  have hab := e hab; have hac := e hac; have had := e had; have hbc := e hbc; have hbd := e hbd; have hcd := e hcd
  simp [mixPass, hab, hac, had, hbc, hbd, hcd, hab.symm, hac.symm, had.symm, hbc.symm, hbd.symm, hcd.symm]

/-- One pass leaves every other word. -/
theorem mixPass_frame (v : Vector Word 16) {a b c d k : Fin 16} (x : Word) (r1 r2 : Nat) (ha : k ≠ a) (hb : k ≠ b) (hc : k ≠ c)
    (hd : k ≠ d) : (mixPass v a b c d x r1 r2)[k] = v[k] := by
  have e : ∀ {i j : Fin 16}, i ≠ j → j.val ≠ i.val := fun h h' => h (Fin.ext h'.symm)
  simp [mixPass, Vector.getElem_set, e ha, e hb, e hc, e hd]

/-! ## Compression -/

/-- `COMPRESS1` writes `h` and `t` alone (R126). -/
theorem compress1_rest (c : Ctx) (block : List Byte) (inc : Nat) :
    (compress1 c block inc).t = addBytes c.t inc ∧ (compress1 c block inc).f0 = c.f0 ∧ (compress1 c block inc).f1 = c.f1 ∧
      (compress1 c block inc).buf = c.buf ∧ (compress1 c block inc).buflen = c.buflen ∧
      (compress1 c block inc).lastNode = c.lastNode ∧ (compress1 c block inc).valid = c.valid :=
  ⟨rfl, rfl, rfl, rfl, rfl, rfl, rfl⟩

@[simp] theorem compress_zero (c : Ctx) (src : List Byte) (inc : Nat) : compress c src 0 inc = c := rfl

theorem compress_succ (c : Ctx) (src : List Byte) (n inc : Nat) :
    compress c src (n + 1) inc = compress (compress1 c (src.take 64) inc) (src.drop 64) n inc := rfl

@[simp] theorem compress_one (c : Ctx) (src : List Byte) (inc : Nat) :
    compress c src 1 inc = compress1 c (src.take 64) inc := rfl

/-- `COMPRESS` writes `h` and `t` alone (R125, R126). -/
theorem compress_rest (c : Ctx) (src : List Byte) (n inc : Nat) :
    (compress c src n inc).f0 = c.f0 ∧ (compress c src n inc).f1 = c.f1 ∧ (compress c src n inc).buf = c.buf ∧
      (compress c src n inc).buflen = c.buflen ∧ (compress c src n inc).lastNode = c.lastNode ∧
      (compress c src n inc).valid = c.valid := by
  induction n generalizing c src with
  | zero => exact ⟨rfl, rfl, rfl, rfl, rfl, rfl⟩
  | succ n ih => exact ih _ _

/-- The counter after `n` blocks with a whole-block increment (R127, R172). -/
theorem compress_t (c : Ctx) (src : List Byte) (n : Nat) :
    (compress c src n 64).t = c.t + BitVec.ofNat 64 (64 * n) := by
  induction n generalizing c src with
  | zero => simp
  | succ n ih =>
    rw [compress_succ, ih, (compress1_rest _ _ _).1, addBytes, BitVec.add_assoc]
    congr 1
    rw [← BitVec.ofNat_add]
    congr 1; omega

/-- The buffer never enters a compression of other bytes: it can be replaced before or after. -/
theorem compress_setBuffer (c : Ctx) (buf : Vector Byte 64) (len : Nat) (src : List Byte) (n inc : Nat) :
    compress { c with buf := buf, buflen := len } src n inc = { compress c src n inc with buf := buf, buflen := len } := by
  induction n generalizing c src with
  | zero => rfl
  | succ n ih => exact ih (compress1 c (src.take 64) inc) (src.drop 64)

/-! ## `UPD`, one block at a time (R171) -/

/-- The context after the buffer is filled up with `d`, compressed and cleared: step (1) of R171. -/
def flush (c : Ctx) (d : List Byte) : Ctx :=
  { compress1 c (putBytes c.buf c.buflen d).toList 64 with buf := Vector.replicate 64 0, buflen := 0 }

@[simp] theorem flush_buflen (c : Ctx) (d : List Byte) : (flush c d).buflen = 0 := rfl
@[simp] theorem flush_buf (c : Ctx) (d : List Byte) : (flush c d).buf = Vector.replicate 64 0 := rfl
@[simp] theorem flush_t (c : Ctx) (d : List Byte) : (flush c d).t = addBytes c.t 64 := rfl
@[simp] theorem flush_f0 (c : Ctx) (d : List Byte) : (flush c d).f0 = c.f0 := rfl
@[simp] theorem flush_f1 (c : Ctx) (d : List Byte) : (flush c d).f1 = c.f1 := rfl
@[simp] theorem flush_lastNode (c : Ctx) (d : List Byte) : (flush c d).lastNode = c.lastNode := rfl
@[simp] theorem flush_valid (c : Ctx) (d : List Byte) : (flush c d).valid = c.valid := rfl

/-- Filling after a copy is filling with the two strings. -/
theorem flush_keep (c : Ctx) (a b : List Byte) : flush (keep c a) b = flush c (a ++ b) := by
  simp only [flush, keep, putBytes_append, compress1]

theorem topOff_over {c : Ctx} {d : List Byte} (h : 64 - c.buflen < d.length) :
    topOff c d = (flush c (d.take (64 - c.buflen)), d.drop (64 - c.buflen)) := by
  have e : ∀ v : Vector Byte 64, v.toList.take 64 = v.toList := fun v => List.take_of_length_le (by simp)
  simp only [topOff, h, if_true, compress_one, e, flush, compress1]

theorem topOff_fits {c : Ctx} {d : List Byte} (h : d.length ≤ 64 - c.buflen) : topOff c d = (c, d) := by
  simp only [topOff, gt_iff_lt, Nat.not_lt.2 h, if_false]

theorem bulk_over {c : Ctx} {d : List Byte} (h : 64 < d.length) :
    bulk c d = (compress c d ((d.length + 63) / 64 - 1) 64, d.drop (64 * ((d.length + 63) / 64 - 1))) := by
  simp only [bulk, gt_iff_lt, h, if_true]

theorem bulk_fits {c : Ctx} {d : List Byte} (h : d.length ≤ 64) : bulk c d = (c, d) := by
  simp only [bulk, gt_iff_lt, Nat.not_lt.2 h, if_false]

/-- No data: nothing is written (R175). -/
@[simp] theorem upd_nil (c : Ctx) : upd c [] = c := rfl

@[simp] theorem keep_buflen (c : Ctx) (d : List Byte) : (keep c d).buflen = c.buflen + d.length := by simp only [keep]
@[simp] theorem keep_buf (c : Ctx) (d : List Byte) : (keep c d).buf = putBytes c.buf c.buflen d := by simp only [keep]
@[simp] theorem keep_h (c : Ctx) (d : List Byte) : (keep c d).h = c.h := by simp only [keep]
@[simp] theorem keep_t (c : Ctx) (d : List Byte) : (keep c d).t = c.t := by simp only [keep]
@[simp] theorem keep_f0 (c : Ctx) (d : List Byte) : (keep c d).f0 = c.f0 := by simp only [keep]
@[simp] theorem keep_f1 (c : Ctx) (d : List Byte) : (keep c d).f1 = c.f1 := by simp only [keep]
@[simp] theorem keep_lastNode (c : Ctx) (d : List Byte) : (keep c d).lastNode = c.lastNode := by simp only [keep]
@[simp] theorem keep_valid (c : Ctx) (d : List Byte) : (keep c d).valid = c.valid := by simp only [keep]

/-- Data that fits the free space is buffered, not compressed. -/
theorem upd_fits {c : Ctx} {d : List Byte} (h : d.length ≤ 64 - c.buflen) : upd c d = keep c d := by
  by_cases h0 : d.length = 0
  · obtain rfl := List.length_eq_zero_iff.1 h0
    simp [keep]
  · simp only [upd, h0, if_false, topOff_fits h, bulk_fits (Nat.le_trans h (Nat.sub_le _ _))]

/-- Data that exceeds the free space fills the buffer, one block is compressed, and the rest is absorbed. -/
theorem upd_over {c : Ctx} {d : List Byte} (h : 64 - c.buflen < d.length) :
    upd c d = upd (flush c (d.take (64 - c.buflen))) (d.drop (64 - c.buflen)) := by
  have h0 : d.length ≠ 0 := by omega
  generalize hc : flush c (d.take (64 - c.buflen)) = c'
  generalize hr : d.drop (64 - c.buflen) = r
  have hb : c'.buflen = 0 := by rw [← hc]; rfl
  have hz : c'.buf = Vector.replicate 64 0 := by rw [← hc]; rfl
  have hlen : r.length = d.length - (64 - c.buflen) := by rw [← hr]; simp
  have hr0 : r.length ≠ 0 := by omega
  have lhs : upd c d = keep (bulk c' r).1 (bulk c' r).2 := by
    simp only [upd, h0, if_false, topOff_over h, hc, hr]
  rw [lhs]
  by_cases hs : r.length ≤ 64
  · rw [upd_fits (by omega), bulk_fits hs]
  · have hgt : 64 < r.length := by omega
    simp only [upd, hr0, if_false, topOff_over (c := c') (d := r) (by omega), hb, Nat.sub_zero]
    have hblock : flush c' (r.take 64) = compress1 c' (r.take 64) 64 := by
      have : (putBytes c'.buf c'.buflen (r.take 64)).toList = r.take 64 := by
        rw [hb]; exact toList_putBytes_block _ _ (by simp; omega)
      rw [flush, this, ← hz, ← hb]
      rfl
    rw [hblock, bulk_over hgt]
    by_cases hm : 64 < (r.drop 64).length
    · rw [bulk_over hm]
      have e1 : (r.length + 63) / 64 - 1 = ((r.drop 64).length + 63) / 64 - 1 + 1 := by
        simp only [List.length_drop] at hm ⊢; omega
      have e2 : 64 + 64 * (((r.drop 64).length + 63) / 64 - 1) = 64 * (((r.drop 64).length + 63) / 64 - 1 + 1) := by omega
      rw [e1, compress_succ, List.drop_drop, e2]
    · rw [bulk_fits (by omega)]
      have e1 : (r.length + 63) / 64 - 1 = 1 := by simp only [List.length_drop] at hm; omega
      rw [e1, compress_one]

/-- Two copies to the buffer are one. -/
theorem keep_keep (c : Ctx) (a b : List Byte) : keep (keep c a) b = keep c (a ++ b) := by
  simp only [keep, putBytes_append, List.length_append, Nat.add_assoc]

/-- What holds of a context that absorbs data which fits, and passes from the flushed context to the context, holds of `UPD`. -/
theorem upd_induct {P : Ctx → List Byte → Prop} (fits : ∀ c d, d.length ≤ 64 - c.buflen → P c d)
    (exceeds : ∀ c d, 64 - c.buflen < d.length → P (flush c (d.take (64 - c.buflen))) (d.drop (64 - c.buflen)) → P c d)
    (c : Ctx) (d : List Byte) : P c d := by
  induction hn : d.length + c.buflen using Nat.strongRecOn generalizing c d with
  | ind n ih =>
    by_cases ha : d.length ≤ 64 - c.buflen
    · exact fits c d ha
    · exact exceeds c d (by omega) (ih ((d.drop (64 - c.buflen)).length + 0) (by simp; omega) _ _ (by simp))

/-- `UPD` writes neither the flag words nor the last-node flag nor the validity (R171). -/
theorem upd_rest (c : Ctx) (d : List Byte) : (upd c d).f0 = c.f0 ∧ (upd c d).f1 = c.f1 ∧ (upd c d).lastNode = c.lastNode ∧
    (upd c d).valid = c.valid := by
  induction c, d using upd_induct with
  | fits c d h => rw [upd_fits h]; simp
  | exceeds c d h ih => rw [upd_over h]; simpa using ih

/-- `UPD` keeps the fill length inside the buffer (R24). -/
theorem upd_buflen_le (c : Ctx) (d : List Byte) (hc : c.buflen ≤ 64) : (upd c d).buflen ≤ 64 := by
  induction c, d using upd_induct with
  | fits c d h => rw [upd_fits h, keep_buflen]; omega
  | exceeds c d h ih => rw [upd_over h]; exact ih (by simp)

/-- `UPD` keeps the buffer zero from the fill length on and the counter at whole blocks (R173, R27). -/
theorem upd_tail (c : Ctx) (d : List Byte) (hz : ∀ k : Fin 64, c.buflen ≤ k.val → c.buf[k] = 0) (ht : c.t.toNat % 64 = 0) :
    (∀ k : Fin 64, (upd c d).buflen ≤ k.val → (upd c d).buf[k] = 0) ∧ (upd c d).t.toNat % 64 = 0 := by
  induction c, d using upd_induct with
  | fits c d h =>
    rw [upd_fits h]
    refine ⟨fun k hk => ?_, by simpa using ht⟩
    simp only [keep_buflen, keep_buf, Fin.getElem_fin] at hk ⊢
    rw [putBytes_getElem, if_neg (by omega)]
    exact hz k (by omega)
  | exceeds c d h ih =>
    rw [upd_over h]
    refine ih (by simp) ?_
    simp only [flush_t, addBytes, BitVec.toNat_add, BitVec.toNat_ofNat]
    omega

/-! ## `FIN` (R195) -/

@[simp] theorem length_digest (c : Ctx) (n : Nat) : (digest c n).length = min n 32 := by
  simp [digest, length_leBytes]

/-- Whatever the context, `FIN` leaves it erased (R194). -/
@[simp] theorem fin_erases (c : Ctx) (n : Nat) : (fin c n).1 = Ctx.erased := rfl

@[simp] theorem length_fin (c : Ctx) (n : Nat) : (fin c n).2.length = min n 32 := by simp [fin]

theorem hmacPass_erases (k : List Byte) (pad : Byte) (text : List Byte) : (hmacPass k pad text).1 = Ctx.erased := rfl

theorem length_hmacRun (key msg : List Byte) : (hmacRun key msg).2.length = 32 := by
  simp [hmacRun, outerPass, hmacPass]

theorem length_kblock (key : List Byte) : (kblock key).length = 64 := by
  unfold kblock
  split
  · simp
  · simp; omega

end Sys2Proof.Machine
end

