-- ==== Sys2Proof/Laws/Decode.lean ====
section
/-! SUPPORT. Fields of the layouts of a command word, and byte order: what the decoder reads from what the encoder writes. -/

namespace Sys2Proof

/-- Two words are equal when their four bytes are. -/
theorem word_ext {a b : Word} (h0 : a.extractLsb' 0 8 = b.extractLsb' 0 8) (h1 : a.extractLsb' 8 8 = b.extractLsb' 8 8)
    (h2 : a.extractLsb' 16 8 = b.extractLsb' 16 8) (h3 : a.extractLsb' 24 8 = b.extractLsb' 24 8) : a = b := by
  have bits : ∀ (start : Nat), a.extractLsb' start 8 = b.extractLsb' start 8 →
      ∀ i, start ≤ i → i < start + 8 → a.getLsbD i = b.getLsbD i := by
    intro start h i hlo hhi
    have := congrArg (fun v => v.getLsbD (i - start)) h
    simp only [BitVec.getLsbD_extractLsb'] at this
    rwa [show start + (i - start) = i by omega, decide_eq_true (by omega), Bool.true_and, Bool.true_and] at this
  refine BitVec.eq_of_getLsbD_eq fun i hi => ?_
  by_cases c0 : i < 8
  · exact bits 0 h0 i (by omega) (by omega)
  by_cases c1 : i < 16
  · exact bits 8 h1 i (by omega) (by omega)
  by_cases c2 : i < 24
  · exact bits 16 h2 i (by omega) (by omega)
  · exact bits 24 h3 i (by omega) (by omega)

/-- The four bytes of four bytes joined. -/
theorem bytes_of_append (b0 b1 b2 b3 : Byte) :
    (b3 ++ b2 ++ b1 ++ b0).extractLsb' 0 8 = b0 ∧ (b3 ++ b2 ++ b1 ++ b0).extractLsb' 8 8 = b1 ∧
      (b3 ++ b2 ++ b1 ++ b0).extractLsb' 16 8 = b2 ∧ (b3 ++ b2 ++ b1 ++ b0).extractLsb' 24 8 = b3 := by
  refine ⟨?_, ?_, ?_, ?_⟩ <;>
    (refine BitVec.eq_of_getLsbD_eq fun i hi => ?_
     simp only [BitVec.getLsbD_extractLsb', hi, decide_true, Bool.true_and, BitVec.getLsbD_append])
  · rw [if_pos (by omega)]; congr 1; omega
  · rw [if_neg (by omega), if_pos (by omega)]; congr 1; omega
  · rw [if_neg (by omega), if_neg (by omega), if_pos (by omega)]; congr 1; omega
  · rw [if_neg (by omega), if_neg (by omega), if_neg (by omega)]; congr 1; omega

/-- A word is its four bytes joined. -/
theorem append_bytes (w : Word) :
    w.extractLsb' 24 8 ++ w.extractLsb' 16 8 ++ w.extractLsb' 8 8 ++ w.extractLsb' 0 8 = w := by
  obtain ⟨h0, h1, h2, h3⟩ := bytes_of_append (w.extractLsb' 0 8) (w.extractLsb' 8 8) (w.extractLsb' 16 8) (w.extractLsb' 24 8)
  exact word_ext h0 h1 h2 h3

/-- Reading back the bytes of a word gives the word (R11, R68). -/
theorem wordOfBytes_bytes (w : Word) :
    wordOfBytes (w.extractLsb' 0 8) (w.extractLsb' 8 8) (w.extractLsb' 16 8) (w.extractLsb' 24 8) = w := append_bytes w

/-- The bytes of a word made of four bytes are those bytes (R11, R68). -/
theorem bytesOfWord_wordOfBytes (b0 b1 b2 b3 : Byte) : bytesOfWord (wordOfBytes b0 b1 b2 b3) = [b0, b1, b2, b3] := by
  obtain ⟨h0, h1, h2, h3⟩ := bytes_of_append b0 b1 b2 b3
  simp only [bytesOfWord, wordOfBytes, h0, h1, h2, h3]

/-- Four bytes joined say what each of them is. -/
theorem append_bytes_inj {a0 a1 a2 a3 b0 b1 b2 b3 : Byte} :
    a3 ++ a2 ++ a1 ++ a0 = b3 ++ b2 ++ b1 ++ b0 ↔ a0 = b0 ∧ a1 = b1 ∧ a2 = b2 ∧ a3 = b3 := by
  refine ⟨fun h => ?_, fun ⟨h0, h1, h2, h3⟩ => by rw [h0, h1, h2, h3]⟩
  obtain ⟨p0, p1, p2, p3⟩ := bytes_of_append a0 a1 a2 a3
  obtain ⟨q0, q1, q2, q3⟩ := bytes_of_append b0 b1 b2 b3
  rw [h] at p0 p1 p2 p3
  exact ⟨p0.symm.trans q0, p1.symm.trans q1, p2.symm.trans q2, p3.symm.trans q3⟩

/-- Masking a word masks its bytes. -/
theorem and_append_bytes (a0 a1 a2 a3 m0 m1 m2 m3 : Byte) :
    (a3 ++ a2 ++ a1 ++ a0) &&& (m3 ++ m2 ++ m1 ++ m0) = (a3 &&& m3) ++ (a2 &&& m2) ++ (a1 &&& m1) ++ (a0 &&& m0) := by
  have h : ∀ {n p : Nat} (a a' : BitVec n) (b b' : BitVec p), (a ++ b) &&& (a' ++ b') = (a &&& a') ++ (b &&& b') := by
    intro n p a a' b b'
    refine BitVec.eq_of_getLsbD_eq fun i hi => ?_
    simp only [BitVec.getLsbD_and, BitVec.getLsbD_append]
    split <;> rfl
  rw [h, h, h]

/-- Which bits a mask keeps, byte by byte. -/
theorem and_mask_iff (w : Word) (m0 m1 m2 m3 v0 v1 v2 v3 : Byte) :
    w &&& (m3 ++ m2 ++ m1 ++ m0) = v3 ++ v2 ++ v1 ++ v0 ↔
      w.extractLsb' 0 8 &&& m0 = v0 ∧ w.extractLsb' 8 8 &&& m1 = v1 ∧ w.extractLsb' 16 8 &&& m2 = v2 ∧
        w.extractLsb' 24 8 &&& m3 = v3 := by
  conv_lhs => rw [← append_bytes w]
  rw [and_append_bytes, append_bytes_inj]

/-! ## The decoder's specification (R94) -/

/-- What a word must look like to be a command, byte by byte. -/
def Spells (w : Word) : Instr → Prop
  | .init n => opcOf w = 1 ∧ outlenOf w = n ∧ w.extractLsb' 16 8 = 0 ∧ w.extractLsb' 24 8 = 0
  | .initKey n k => opcOf w = 2 ∧ outlenOf w = n ∧ keylenOf w = k ∧ w.extractLsb' 24 8 = 0
  | .initParam => opcOf w = 3 ∧ w.extractLsb' 8 8 = 0 ∧ w.extractLsb' 16 8 = 0 ∧ w.extractLsb' 24 8 = 0
  | .update => opcOf w = 4 ∧ w.extractLsb' 8 8 = 0 ∧ w.extractLsb' 16 8 = 0 ∧ w.extractLsb' 24 8 = 0
  | .final n => opcOf w = 5 ∧ outlenOf w = n ∧ w.extractLsb' 16 8 = 0 ∧ w.extractLsb' 24 8 = 0
  | .hmac n => opcOf w = 6 ∧ outlenOf w = n ∧ w.extractLsb' 16 8 = 0 ∧ w.extractLsb' 24 8 = 0
  | .setln b => opcOf w = 7 ∧ lnOf w = b ∧ w.extractLsb' 8 8 = 0 ∧ w.extractLsb' 16 8 &&& 0xFE = 0 ∧ w.extractLsb' 24 8 = 0

/-- An opcode outside the map has no row (R92). -/
theorem find_row_none (o : Byte) (h1 : o ≠ 1) (h2 : o ≠ 2) (h3 : o ≠ 3) (h4 : o ≠ 4) (h5 : o ≠ 5) (h6 : o ≠ 6) (h7 : o ≠ 7) :
    opcodeTable.find? (fun r => r.opc == o) = none := by
  rw [List.find?_eq_none]
  simp only [opcodeTable, List.mem_cons, List.not_mem_nil, or_false]
  rintro r (rfl | rfl | rfl | rfl | rfl | rfl | rfl) h <;> simp only [beq_iff_eq] at h
  exacts [h1 h.symm, h2 h.symm, h3 h.symm, h4 h.symm, h5 h.symm, h6 h.symm, h7 h.symm]

/-- The reserved bits of formats O (R94). -/
theorem resv_formatO (w : Word) : w &&& 0xFFFF0000 = 0 ↔ w.extractLsb' 16 8 = 0 ∧ w.extractLsb' 24 8 = 0 := by
  have h := and_mask_iff w 0 0 0xFF 0xFF 0 0 0 0
  have m : (0xFFFF0000 : Word) = 0xFF#8 ++ 0xFF#8 ++ 0x00#8 ++ 0x00#8 := by decide
  have z : (0 : Word) = 0x00#8 ++ 0x00#8 ++ 0x00#8 ++ 0x00#8 := by decide
  have a : ∀ b : Byte, b &&& 0xFF#8 = b := fun b => BitVec.and_allOnes
  rw [m, z]
  exact h.trans (by simp [a])

/-- The reserved bits of format K (R94). -/
theorem resv_formatK (w : Word) : w &&& 0xFF000000 = 0 ↔ w.extractLsb' 24 8 = 0 := by
  have h := and_mask_iff w 0 0 0 0xFF 0 0 0 0
  have m : (0xFF000000 : Word) = 0xFF#8 ++ 0x00#8 ++ 0x00#8 ++ 0x00#8 := by decide
  have z : (0 : Word) = 0x00#8 ++ 0x00#8 ++ 0x00#8 ++ 0x00#8 := by decide
  have a : ∀ b : Byte, b &&& 0xFF#8 = b := fun b => BitVec.and_allOnes
  rw [m, z]
  exact h.trans (by simp [a])

/-- The reserved bits of format N (R94). -/
theorem resv_formatN (w : Word) :
    w &&& 0xFFFFFF00 = 0 ↔ w.extractLsb' 8 8 = 0 ∧ w.extractLsb' 16 8 = 0 ∧ w.extractLsb' 24 8 = 0 := by
  have h := and_mask_iff w 0 0xFF 0xFF 0xFF 0 0 0 0
  have m : (0xFFFFFF00 : Word) = 0xFF#8 ++ 0xFF#8 ++ 0xFF#8 ++ 0x00#8 := by decide
  have z : (0 : Word) = 0x00#8 ++ 0x00#8 ++ 0x00#8 ++ 0x00#8 := by decide
  have a : ∀ b : Byte, b &&& 0xFF#8 = b := fun b => BitVec.and_allOnes
  rw [m, z]
  exact h.trans (by simp [a])

/-- The reserved bits of format S (R94). -/
theorem resv_formatS (w : Word) :
    w &&& 0xFFFEFF00 = 0 ↔ w.extractLsb' 8 8 = 0 ∧ w.extractLsb' 16 8 &&& 0xFE = 0 ∧ w.extractLsb' 24 8 = 0 := by
  have h := and_mask_iff w 0 0xFF 0xFE 0xFF 0 0 0 0
  have m : (0xFFFEFF00 : Word) = 0xFF#8 ++ 0xFE#8 ++ 0xFF#8 ++ 0x00#8 := by decide
  have z : (0 : Word) = 0x00#8 ++ 0x00#8 ++ 0x00#8 ++ 0x00#8 := by decide
  have a : ∀ b : Byte, b &&& 0xFF#8 = b := fun b => BitVec.and_allOnes
  rw [m, z]
  exact h.trans (by simp [a])

/-- Once the opcode is known, decoding is a test of one mask (R94). -/
theorem decodeWord_of_row {w : Word} {r : OpcodeRow} (h : opcodeTable.find? (fun r => r.opc == opcOf w) = some r) :
    decodeWord w = if w &&& r.resvMask = 0 then commandOf w else .error (.reservedBits r.opc (w &&& r.resvMask)) := by
  rw [decodeWord, h]

/-- A word decodes to a command exactly when it spells it. -/
theorem decodeWord_ok_iff (w : Word) (i : Instr) : decodeWord w = .ok i ↔ Spells w i := by
  have tail : ∀ {m : Word} {c : Instr} {e : DecodeError} {P : Prop}, (w &&& m = 0 ↔ P) →
      ((if w &&& m = 0 then Except.ok c else Except.error e) = Except.ok i ↔ P ∧ c = i) := by
    intro m c e P h
    by_cases hp : P
    · simp [h.2 hp, hp]
    · rw [if_neg (mt h.1 hp)]; simp [hp]
  by_cases c1 : opcOf w = 1
  · have hc : commandOf w = .ok (.init (outlenOf w)) := by simp [commandOf, c1]
    rw [decodeWord_of_row (r := opcodeTable[0]) (by rw [c1]; rfl), hc]
    refine (tail (resv_formatO w)).trans ?_
    cases i <;> simp [Spells, c1]
    tauto
  by_cases c2 : opcOf w = 2
  · have hc : commandOf w = .ok (.initKey (outlenOf w) (keylenOf w)) := by simp [commandOf, c2]
    rw [decodeWord_of_row (r := opcodeTable[1]) (by rw [c2]; rfl), hc]
    refine (tail (resv_formatK w)).trans ?_
    cases i <;> simp [Spells, c2]
    tauto
  by_cases c3 : opcOf w = 3
  · have hc : commandOf w = .ok (.initParam) := by simp [commandOf, c3]
    rw [decodeWord_of_row (r := opcodeTable[2]) (by rw [c3]; rfl), hc]
    refine (tail (resv_formatN w)).trans ?_
    cases i <;> simp [Spells, c3]
  by_cases c4 : opcOf w = 4
  · have hc : commandOf w = .ok (.update) := by simp [commandOf, c4]
    rw [decodeWord_of_row (r := opcodeTable[3]) (by rw [c4]; rfl), hc]
    refine (tail (resv_formatN w)).trans ?_
    cases i <;> simp [Spells, c4]
  by_cases c5 : opcOf w = 5
  · have hc : commandOf w = .ok (.final (outlenOf w)) := by simp [commandOf, c5]
    rw [decodeWord_of_row (r := opcodeTable[4]) (by rw [c5]; rfl), hc]
    refine (tail (resv_formatO w)).trans ?_
    cases i <;> simp [Spells, c5]
    tauto
  by_cases c6 : opcOf w = 6
  · have hc : commandOf w = .ok (.hmac (outlenOf w)) := by simp [commandOf, c6]
    rw [decodeWord_of_row (r := opcodeTable[5]) (by rw [c6]; rfl), hc]
    refine (tail (resv_formatO w)).trans ?_
    cases i <;> simp [Spells, c6]
    tauto
  by_cases c7 : opcOf w = 7
  · have hc : commandOf w = .ok (.setln (lnOf w)) := by simp [commandOf, c7]
    rw [decodeWord_of_row (r := opcodeTable[6]) (by rw [c7]; rfl), hc]
    refine (tail (resv_formatS w)).trans ?_
    cases i <;> simp [Spells, c7]
    tauto
  · rw [decodeWord, find_row_none _ c1 c2 c3 c4 c5 c6 c7]
    cases i <;> simp_all [Spells]

/-! ## The layouts of R90 -/

@[simp] theorem opcOf_layoutK (k l o : Byte) : opcOf (layoutK k l o) = o := (bytes_of_append o l k 0).1

@[simp] theorem outlenOf_layoutK (k l o : Byte) : outlenOf (layoutK k l o) = l.toNat :=
  congrArg BitVec.toNat (bytes_of_append o l k 0).2.1

@[simp] theorem keylenOf_layoutK (k l o : Byte) : keylenOf (layoutK k l o) = k.toNat :=
  congrArg BitVec.toNat (bytes_of_append o l k 0).2.2.1

theorem layoutS_eq_layoutK (ln : Bool) (o : Byte) : layoutS ln o = layoutK (if ln then 1 else 0) 0 o := by
  cases ln <;> (refine BitVec.eq_of_getLsbD_eq fun i hi => ?_) <;>
    simp [layoutS, layoutK]

@[simp] theorem opcOf_layoutS (ln : Bool) (o : Byte) : opcOf (layoutS ln o) = o := by rw [layoutS_eq_layoutK, opcOf_layoutK]

@[simp] theorem lnOf_layoutS (ln : Bool) (o : Byte) : lnOf (layoutS ln o) = ln := by
  have h := (bytes_of_append o 0 (if ln then 1 else 0) 0).2.2.1
  have h' := congrArg (fun b => b.getLsbD 0) h
  simp only [BitVec.getLsbD_extractLsb'] at h'
  rw [layoutS_eq_layoutK, lnOf, layoutK]
  simpa using h'.trans (by cases ln <;> rfl)

/-- The reserved bits of a layout, byte by byte. -/
theorem layoutK_and (k l o m0 m1 m2 m3 : Byte) :
    layoutK k l o &&& (m3 ++ m2 ++ m1 ++ m0) = layoutK (k &&& m2) (l &&& m1) (o &&& m0) := by
  rw [layoutK, and_append_bytes, BitVec.zero_and]
  rfl

/-- A length that fits its field is read back as it is (R91). -/
theorem toNat_lengthField {n : Nat} (h : fieldFits n) : (lengthField n).toNat = n := by
  simp [lengthField, Nat.mod_eq_of_lt h]

end Sys2Proof
end

