-- ==== Sys2Proof/Laws/PerInstr.lean ====
section
/-! SUPPORT. Statements made once per command: the word the encoder writes selects the row of the opcode map that has the command's
mnemonic (R92, R94). -/

namespace Sys2Proof.Laws.SelectsItsRow

/-- The encoded word selects a row of the opcode map, and the row's mnemonic is the command's. -/
def Statement (i : Instr) : Prop := ∃ r ∈ opcodeTable, r.mnemonic = i.mnemonic ∧ r.selects (encode i) = true

/-- A layout keeps exactly the opcode under the mask of its format. -/
theorem selects_layoutK (k l o m1 m2 : Byte) (name : String) (hk : k &&& m2 = 0) (hl : l &&& m1 = 0) :
    OpcodeRow.selects { mnemonic := name, opc := o, resvMask := 0xFF#8 ++ m2 ++ m1 ++ 0x00#8 } (layoutK k l o) = true := by
  have mask : (0xFF#8 ++ m2 ++ m1 ++ 0x00#8 : Word) ||| 0x000000FF = 0xFF#8 ++ m2 ++ m1 ++ 0xFF#8 := by
    refine BitVec.eq_of_getLsbD_eq fun i hi => ?_
    rw [show (0x000000FF : Word) = 0x00#8 ++ 0x00#8 ++ 0x00#8 ++ 0xFF#8 from rfl]
    simp only [BitVec.getLsbD_or, BitVec.getLsbD_append, BitVec.getLsbD_zero]
    split <;> simp
  have low : (o.setWidth 32 : Word) = 0x00#8 ++ 0x00#8 ++ 0x00#8 ++ o := by
    refine BitVec.eq_of_getLsbD_eq fun i hi => ?_
    simp only [BitVec.getLsbD_setWidth, BitVec.getLsbD_append, BitVec.getLsbD_zero, hi, decide_true, Bool.true_and]
    by_cases h : i < 8
    · simp [h]
    · simp [h, BitVec.getLsbD_of_ge o i (by omega)]
  have last : o &&& 0xFF#8 = o := BitVec.and_allOnes
  simp only [OpcodeRow.selects, OpcodeRow.mask, OpcodeRow.value, mask, low, layoutK_and, hk, hl, last, beq_iff_eq]
  rfl

theorem init (outlen : Nat) : Statement (.init outlen) :=
  ⟨opcodeTable[0], by decide, rfl, selects_layoutK 0 _ 0x01 0 0xFF "INIT" (by decide) (by simp)⟩

theorem initKey (outlen keylen : Nat) : Statement (.initKey outlen keylen) :=
  ⟨opcodeTable[1], by decide, rfl, selects_layoutK _ _ 0x02 0 0 "INIT_KEY" (by simp) (by simp)⟩

theorem initParam : Statement .initParam := ⟨opcodeTable[2], by decide, rfl, by decide⟩

theorem update : Statement .update := ⟨opcodeTable[3], by decide, rfl, by decide⟩

theorem final (outlen : Nat) : Statement (.final outlen) :=
  ⟨opcodeTable[4], by decide, rfl, selects_layoutK 0 _ 0x05 0 0xFF "FINAL" (by decide) (by simp)⟩

theorem hmac (outlen : Nat) : Statement (.hmac outlen) :=
  ⟨opcodeTable[5], by decide, rfl, selects_layoutK 0 _ 0x06 0 0xFF "HMAC" (by decide) (by simp)⟩

theorem setln (ln : Bool) : Statement (.setln ln) := by
  refine ⟨opcodeTable[6], by decide, rfl, ?_⟩
  cases ln <;> decide

end Sys2Proof.Laws.SelectsItsRow
end

