-- ==== Sys2Proof/Laws/Step.lean ====
section
/-! SUPPORT. What one step can do: the engine's turn or the host's, what each command runs, and what an event of the host does. -/

namespace Sys2Proof.Machine

/-! ## Whose turn (R72) -/

theorem State.engineTurn_iff (s : State) :
    s.engineTurn = true ↔ s.status.busy = true ∧ ∀ i ∈ s.inputs.head?, i.duringBusy = false := by
  cases h : s.inputs <;> simp [State.engineTurn, h]

/-- In the engine's turn the step is the engine's. -/
theorem step_engine {s : State} (h : s.engineTurn = true) : step s = engineStep s := by simp [step, h]

/-- An engine with a command to complete takes its step now, and no self-test is in the way. -/
theorem State.Completing.turn {s : State} (h : s.Completing) :
    s.engineTurn = true ∧ s.status.selfTestPending = false := by
  refine ⟨(s.engineTurn_iff).2 ⟨h.1, h.2.2⟩, ?_⟩
  rcases h.2.1 with h | h <;> simp [Status.selfTestPending, h]

/-- When a command is to be completed, the step runs the latched word. -/
theorem step_completing {s : State} (h : s.Completing) :
    step s = match decodeWord s.pcmd with
      | .ok i => exec i s
      | .error _ => .next s.runIllegal := by
  rw [step_engine h.turn.1, engineStep, h.turn.2]
  rfl

/-- In the host's turn the step is its next event. -/
theorem step_host {s : State} {e : Event} {rest : List Input} (h : s.HostTurn e rest) :
    step s = ({ s with inputs := rest } : State).event e := by
  obtain ⟨early, hi, hb⟩ := h
  have ht : s.engineTurn = false := by
    cases hbusy : s.status.busy <;> simp [State.engineTurn, hi, hbusy]
    exact hb hbusy
  simp [step, ht, hi]

/-- One step is one of five things: the engine completes a command or a word that is none, it runs its self-test, the host has its turn,
or the machine idles. -/
theorem step_cases (s : State) :
    (s.Completing ∧ (∃ i, decodeWord s.pcmd = .ok i ∧ step s = exec i s)) ∨
      (s.Completing ∧ (∃ e, decodeWord s.pcmd = .error e) ∧ step s = .next s.runIllegal) ∨
      (s.status.selfTestPending = true ∧ (∀ i ∈ s.inputs.head?, i.duringBusy = false) ∧ step s = .next s.selfTest) ∨
      (∃ e rest, s.HostTurn e rest ∧ step s = ({ s with inputs := rest } : State).event e) ∨
      (s.status.busy = false ∧ s.inputs = [] ∧ step s = .next s) := by
  by_cases ht : s.engineTurn = true
  · obtain ⟨hb, hi⟩ := s.engineTurn_iff.1 ht
    by_cases hp : s.status.selfTestPending = true
    · refine .inr (.inr (.inl ⟨hp, hi, ?_⟩))
      simp [step_engine ht, engineStep, hp]
    · have hc : s.Completing := by
        refine ⟨hb, ?_, hi⟩
        cases hr : s.status.ready <;> cases hf : s.status.stfail <;> simp_all [Status.selfTestPending]
      have hs := step_completing hc
      cases hd : decodeWord s.pcmd with
      | ok i => exact .inl ⟨hc, i, rfl, by simpa [hd] using hs⟩
      | error e => exact .inr (.inl ⟨hc, ⟨e, rfl⟩, by simpa [hd] using hs⟩)
  · cases hi : s.inputs with
    | nil =>
      refine .inr (.inr (.inr (.inr ⟨?_, rfl, by simp [step, ht, hi]⟩)))
      cases hb : s.status.busy
      · rfl
      · exact absurd (s.engineTurn_iff.2 ⟨hb, by simp [hi]⟩) ht
    | cons i rest =>
      have hh : s.HostTurn i.event rest := by
        refine ⟨i.duringBusy, hi, fun hb => ?_⟩
        cases hd : i.duringBusy
        · exact absurd (s.engineTurn_iff.2 ⟨hb, by simp [hi, hd]⟩) ht
        · rfl
      exact .inr (.inr (.inr (.inl ⟨i.event, rest, hh, step_host hh⟩)))

/-! ## Commands (R232, R240) -/

/-- The effect of a command when no check fails. -/
def effectOf : Instr → State → State
  | .init n => fun s => { s with ctx := pinit (param n 0) }
  | .initKey n k => fun s =>
      { s with
        ctx := upd (pinit (param n k)) (paddedKey (s.memRead (s.argNat 0) k))
        hidden := { s.hidden with initKeyBlock := Vector.replicate 64 0 } }
  | .initParam => fun s => { s with ctx := pinit (s.memRead (s.argNat 0) 32) }
  | .update => fun s =>
      { s with
        ctx := upd s.ctx (s.memRead (s.argNat 0) (s.argNat 1))
        hidden := if updCompressions s.ctx.buflen (s.argNat 1) = 0 then s.hidden else s.hidden.eraseWork }
  | .final n => fun s =>
      { s.memWrite (s.argNat 0) (fin s.ctx n).2 with ctx := Ctx.erased, hidden := s.hidden.eraseWork }
  | .hmac n => fun s =>
      { s.memWrite (s.argNat 4)
          ((hmacRun (s.memRead (s.argNat 2) (s.argNat 3)) (s.memRead (s.argNat 0) (s.argNat 1))).2.take n) with
        hidden := s.hidden.afterHmac Ctx.erased }
  | .setln b => fun s => { s with ctx := { s.ctx with lastNode := b } }

/-- The checks of a command after E_UNAVAIL, in the order of R240. -/
def checksOf : Instr → State → List (ErrCode × Bool)
  | .init n => fun _ => [(.outlen, legalLength n)]
  | .initKey n k => fun s =>
      [(.outlen, legalLength n), (.keylen, legalLength k), (.range, validRange s.cfg.dmemSize (s.argNat 0) k)]
  | .initParam => fun s => [(.range, validRange s.cfg.dmemSize (s.argNat 0) 32)]
  | .update => fun s => [(.state, s.ctx.valid), (.range, validRange s.cfg.dmemSize (s.argNat 0) (s.argNat 1))]
  | .final n => fun s =>
      [(.state, s.ctx.valid), (.outlen, legalLength n), (.range, validRange s.cfg.dmemSize (s.argNat 0) n)]
  | .hmac n => fun s =>
      [(.outlen, legalLength n),
       (.range, validRange s.cfg.dmemSize (s.argNat 0) (s.argNat 1) && validRange s.cfg.dmemSize (s.argNat 2) (s.argNat 3) &&
         validRange s.cfg.dmemSize (s.argNat 4) n)]
  | .setln _ => fun s => [(.state, s.ctx.valid)]

/-- Every command is one run of its checks and its effect. -/
theorem exec_eq (i : Instr) (s : State) : exec i s = .next (s.runCommand (checksOf i s) (effectOf i)) := by
  cases i <;> rfl

/-- A command completes with its full effect, or with an error and no other effect. -/
theorem exec_cases (i : Instr) (s : State) :
    (s.checkAll (checksOf i s) = .ok ∧ exec i s = .next ((effectOf i s).complete .ok)) ∨
      (s.checkAll (checksOf i s) ≠ .ok ∧ exec i s = .next (s.complete (s.checkAll (checksOf i s)))) := by
  rw [exec_eq]
  rcases s.runCommand_cases (checksOf i s) (effectOf i) with ⟨h, e⟩ | ⟨h, e⟩
  · exact .inl ⟨h, by rw [e]⟩
  · exact .inr ⟨h, by rw [e]⟩

/-- The checks of a command that report no error. -/
theorem checkAll_ok_iff (i : Instr) (s : State) :
    s.checkAll (checksOf i s) = .ok ↔ s.status.stfail = false ∧ ∀ c ∈ checksOf i s, c.2 = true := by
  have key : ∀ l : List (ErrCode × Bool), (∀ c ∈ l, c.1 ≠ .ok) → (firstFailing l = .ok ↔ ∀ c ∈ l, c.2 = true) := by
    intro l hl
    induction l with
    | nil => simp
    | cons c l ih =>
      obtain ⟨e, b⟩ := c
      have he := hl (e, b) (by simp)
      cases b
      · simpa using he
      · simpa using ih fun c hc => hl c (by simp [hc])
  have hne : ∀ c ∈ checksOf i s, c.1 ≠ .ok := by cases i <;> simp [checksOf]
  cases hf : s.status.stfail
  · rw [State.checkAll_avail hf]; simpa using key _ hne
  · rw [State.checkAll_unavail hf]; simp

/-! ## The aperture (R65, R66) -/

theorem acceptsAccess_iff (off : Nat) (w : Width) : acceptsAccess off w = true ↔ accepted off w := by
  unfold acceptsAccess accepted windowBase
  by_cases h : off < 4096
  · have h' : ¬4096 ≤ off := by omega
    simp [h, h']
  · have h' : 4096 ≤ off := by omega
    cases w <;> simp [h, h']

theorem regionOf_registers {size off : Nat} (h : off < 0x1000) : regionOf size off = .registers := by
  simp [regionOf, windowBase, h]

theorem regionOf_dmem {size off : Nat} (h : 0x1000 ≤ off) (h' : off < 0x1000 + size) :
    regionOf size off = .dmem (off - 0x1000) := by
  simp [regionOf, windowBase, Nat.not_lt.2 h, h']

theorem regionOf_unmapped {size off : Nat} (h : 0x1000 + size ≤ off) : regionOf size off = .unmapped := by
  simp [regionOf, windowBase, Nat.not_lt.2 (Nat.le_trans (Nat.le_add_right _ _) h), Nat.not_lt.2 h]

/-- Each register is found at its offset (R65). -/
theorem regAt_offset (r : Reg) : regAt r.offset = some r := by
  have h : ∀ r ∈ registers, regAt r.offset = some r := by decide +kernel
  refine h r ?_
  cases r <;> simp [registers]

/-- Only registers are found. -/
theorem offset_of_regAt {off : Nat} {r : Reg} (h : regAt off = some r) : r.offset = off := by
  have := List.find?_some h
  simpa using this

/-- An accepted read in the host's turn puts its data on the bus and changes nothing else. -/
theorem step_read {s : State} {off : BitVec 16} {w : Width} {rest : List Input} (h : s.HostTurn (.access (.read off w)) rest)
    (ha : accepted off.toNat w) :
    step s = .next { s with inputs := rest, rdata := some (({ s with inputs := rest } : State).busRead off.toNat w) } := by
  rw [step_host h]
  simp [State.event, State.access, (acceptsAccess_iff _ _).2 ha]

/-- An accepted write in the host's turn has its effect. -/
theorem step_write {s : State} {off : BitVec 16} {w : Width} {v : Word} {rest : List Input}
    (h : s.HostTurn (.access (.write off w v)) rest) (ha : accepted off.toNat w) :
    step s = .next (({ s with inputs := rest } : State).busWrite off.toNat w v) := by
  rw [step_host h]
  simp [State.event, State.access, (acceptsAccess_iff _ _).2 ha]

/-- A write to a register, by its offset. -/
theorem busWrite_reg (s : State) (r : Reg) (w : Width) (v : Word) : s.busWrite r.offset w v = s.writeReg r v := by
  have : r.offset < 0x1000 := by cases r <;> simp only [Reg.offset] <;> omega
  simp [State.busWrite, regionOf_registers this, regAt_offset]

/-- Every register lies in the register region at a multiple of 4, so a 32-bit access to it is accepted (R65, R66). -/
theorem accepted_offset (r : Reg) : accepted r.offset .w32 ∧ r.offset < 0x1000 := by
  have h : ∀ r ∈ registers, r.offset % 4 = 0 ∧ r.offset < 0x1000 := by decide +kernel
  have hr := h r (by cases r <;> simp [registers])
  exact ⟨.inl ⟨rfl, hr.1⟩, hr.2⟩

/-- A 32-bit write to a register in the host's turn is that register's write. -/
theorem step_writeReg {s : State} {off : BitVec 16} {v : Word} {rest : List Input} {r : Reg}
    (h : s.HostTurn (.access (.write off .w32 v)) rest) (ho : off.toNat = r.offset) :
    step s = .next (({ s with inputs := rest } : State).writeReg r v) := by
  rw [step_write h (ho ▸ (accepted_offset r).1), ho, busWrite_reg]

/-- An accepted write is a register's write, a write to the DMEM window, or nothing. -/
theorem busWrite_cases (s : State) (off : Nat) (w : Width) (v : Word) (ha : accepted off w) :
    (∃ r, off = Reg.offset r ∧ w = .w32 ∧ off < 0x1000 ∧ s.busWrite off w v = s.writeReg r v) ∨
      (0x1000 ≤ off ∧ off < 0x1000 + s.cfg.dmemSize ∧
        s.busWrite off w v =
          if s.status.busy then s.dropWrite else s.memWrite (off - 0x1000) ((bytesOfWord v).take w.bytes)) ∨
      s.busWrite off w v = s := by
  by_cases h : off < 0x1000
  · simp only [State.busWrite, regionOf_registers h]
    cases hr : regAt off with
    | none => exact .inr (.inr rfl)
    | some r =>
      refine .inl ⟨r, (offset_of_regAt hr).symm, ?_, h, rfl⟩
      rcases ha with ha | ha
      · exact ha.1
      · omega
  · by_cases h2 : off < 0x1000 + s.cfg.dmemSize
    · exact .inr (.inl ⟨by omega, h2, by simp only [State.busWrite, regionOf_dmem (Nat.le_of_not_lt h) h2]⟩)
    · exact .inr (.inr (by simp only [State.busWrite, regionOf_unmapped (Nat.le_of_not_lt h2)]))

/-- No register write stores to DMEM. -/
theorem writeReg_dmemByte (s : State) (r : Reg) (v : Word) (a : Nat) : (s.writeReg r v).dmemByte a = s.dmemByte a := by
  cases r <;> simp only [State.writeReg, State.writeCtrl]
  case ctrl =>
    split
    · split <;> rfl
    · rfl
  case status => rfl
  case cmd => split <;> rfl
  case arg => split <;> rfl

/-- No command writes the ARG registers, CTRL.IE, the latch, READY, STFAIL or OVR. -/
theorem exec_keeps {i : Instr} {s t : State} (h : exec i s = .next t) :
    t.cfg = s.cfg ∧ t.args = s.args ∧ t.ie = s.ie ∧ t.pcmd = s.pcmd ∧ t.status.ready = s.status.ready ∧
      t.status.stfail = s.status.stfail ∧ t.status.ovr = s.status.ovr := by
  rcases exec_cases i s with ⟨-, e⟩ | ⟨-, e⟩ <;> rw [e] at h <;> cases h
  · cases i <;> exact ⟨rfl, rfl, rfl, rfl, rfl, rfl, rfl⟩
  · exact ⟨rfl, rfl, rfl, rfl, rfl, rfl, rfl⟩

end Sys2Proof.Machine
end

