-- ==== Sys2Proof/Tests/Slice0.lean ====
section
/-! SUPPORT. Tests with expected values from the spec's vectors (95_test_vectors.md), and a witness for the hypotheses of every
statement that has some. -/

namespace Sys2Proof.Tests

open Sys2Proof Sys2Proof.Machine

set_option Elab.async false

/-! ## Well-formedness: each check refuses a term -/

theorem test_wf_init_refuses : (Instr.init 256).wf = false := by decide
theorem test_wf_initKey_refuses_outlen : (Instr.initKey 256 32).wf = false := by decide
theorem test_wf_initKey_refuses_keylen : (Instr.initKey 32 256).wf = false := by decide
theorem test_wf_final_refuses : (Instr.final 300).wf = false := by decide
theorem test_wf_hmac_refuses : (Instr.hmac 256).wf = false := by decide

/-- R91: a length outside the command's range still fits the field. -/
theorem test_wf_accepts_field_values : (Instr.initKey 255 0).wf = true ∧ (Instr.final 0).wf = true := by decide

/-! ## Decoding: words written out from the formats of R90 -/

/-- V-I1. -/
theorem test_decode_init : decodeWord 0b00000000_00000000_00100000_00000001#32 = .ok (.init 32) := by decide
/-- V-I6: the two lengths are told apart. -/
theorem test_decode_initKey : decodeWord 0b00000000_00000101_00010100_00000010#32 = .ok (.initKey 20 5) := by decide
theorem test_decode_initParam : decodeWord 0b00000000_00000000_00000000_00000011#32 = .ok .initParam := by decide
theorem test_decode_update : decodeWord 0b00000000_00000000_00000000_00000100#32 = .ok .update := by decide
theorem test_decode_final : decodeWord 0b00000000_00000000_00010000_00000101#32 = .ok (.final 16) := by decide
theorem test_decode_hmac : decodeWord 0b00000000_00000000_11111111_00000110#32 = .ok (.hmac 255) := by decide
theorem test_decode_setln :
    decodeWord 0b00000000_00000001_00000000_00000111#32 = .ok (.setln true) ∧
      decodeWord 0b00000000_00000000_00000000_00000111#32 = .ok (.setln false) := by decide
/-- V-E1, V-E2, and the top of the reserved opcodes (R95). -/
theorem test_decode_refuses_opcodes :
    decodeWord 0x00000000 = .error (.illegalOpcode 0x00) ∧ decodeWord 0x00000008 = .error (.illegalOpcode 0x08) ∧
      decodeWord 0x000000FF = .error (.illegalOpcode 0xFF) := by decide
/-- V-E15, V-E18, V-E19, and a KEYLEN bit under FINAL (R95). -/
theorem test_decode_refuses_reserved_bits :
    decodeWord 0x01002001 = .error (.reservedBits 0x01 0x01000000) ∧
      decodeWord 0x00010107 = .error (.reservedBits 0x07 0x00000100) ∧
      decodeWord 0x00000104 = .error (.reservedBits 0x04 0x00000100) ∧
      decodeWord 0x00012005 = .error (.reservedBits 0x05 0x00010000) ∧
      decodeWord 0x00020007 = .error (.reservedBits 0x07 0x00020000) := by decide
/-- Bytes lie lowest address first (R68), and three bytes are no command (R96). -/
theorem test_decode_bytes :
    decode [0x02, 0x14, 0x05, 0x00, 0xEE] = .ok (.initKey 20 5, [0xEE]) ∧ decode [0x04, 0x00, 0x00] = .error .truncated := by
  decide
theorem test_decodeTableWord :
    decodeTableWord 32 0x00051402 = some (.initKey 20 5) ∧ decodeTableWord 32 0x00000008 = none := by decide

/-! ## Small states -/

/-- The state a step reached, if it reached one. -/
def next? : Host.Outcome State Fault Refusal → Option State
  | .next t => some t
  | .fault _ => none
  | .refused _ => none

/-- The fault a step ended in, if it did. -/
def fault? : Host.Outcome State Fault Refusal → Option Fault
  | .next _ => none
  | .fault f => some f
  | .refused _ => none

/-- One step, on the command word `w`. -/
def run (w : Nat) (s : State) : Option State := next? (step (s.withFetchWord 32 w))

/-- Reset, with operand registers and DMEM bytes. -/
def start (args : Vector Word 5) (mem : Memory) : State := { State.reset with args := args, mem := mem }

/-- The context of V-I1. -/
def ctx32 : Ctx := pinit (param 32 0)

/-- A state with a valid context. -/
def withCtx (c : Ctx) (args : Vector Word 5) : State := { start args [] with ctx := c }

/-- A state with one event of the host pending. -/
def pending (e : Event) (s : State) : State := { s with inputs := [{ event := e, duringBusy := true }] }

/-- A state that executes the word `w`. -/
def busy (w : Word) (s : State) : State := { s with pcmd := w, status := s.status.accepted }

/-- An engine whose self-test failed, in a build that has one. -/
def failed : State :=
  { State.resetOf { dmemSize := 64, selftestPresent := true, accel := false } with
    status := { busy := false, done := false, ovr := false, ready := false, stfail := true, errcode := .ok } }

/-! ## Commands: one step each -/

/-- V-I1. -/
theorem test_init :
    (run 0x00002001 .reset).map (fun t => (t.ctx.h, t.ctx.buflen, t.statusWord)) =
      some (#v[0x6b08e647, 0xbb67ae85, 0x3c6ef372, 0xa54ff53a, 0x510e527f, 0x9b05688c, 0x1f83d9ab, 0x5be0cd19], 0,
        0x00000052) := by decide +kernel

/-- V-E6, V-E7, V-E17. -/
theorem test_init_errors :
    (run 0x00000001 .reset).map State.statusWord = some 0x00000316 ∧
      (run 0x00002101 .reset).map State.statusWord = some 0x00000316 ∧
      (run 0x00002001 failed).map State.statusWord = some 0x00000626 := by decide +kernel

/-- V-I6: key `01 02 03 04 05`, here at address 7. -/
theorem test_initKey :
    (run 0x00051402 (start #v[7, 0, 0, 0, 0] [(7, 1), (8, 2), (9, 3), (10, 4), (11, 5)])).map
        (fun t => (t.ctx.h[0], t.ctx.buf.toList.take 7, t.ctx.buflen, t.ctx.t)) =
      some (0x6b08e373, [1, 2, 3, 4, 5, 0, 0], 64, 0) := by decide +kernel

/-- V-E8 to V-E12. -/
theorem test_initKey_errors :
    (run 0x00002002 .reset).map State.statusWord = some 0x00000416 ∧
      (run 0x00212002 .reset).map State.statusWord = some 0x00000416 ∧
      (run 0x00002102 .reset).map State.statusWord = some 0x00000316 ∧
      (run 0x00202002 (start #v[0x0FE1, 0, 0, 0, 0] [])).map State.statusWord = some 0x00000516 ∧
      (run 0x00202002 (start #v[0x0FE0, 0, 0, 0, 0] [])).map State.statusWord = some 0x00000052 := by decide +kernel

/-- The block of V-I3, at address 0. -/
def block3 : Memory :=
  [(0, 0x20), (1, 0x00), (2, 0x01), (3, 0x01), (4, 0), (5, 0), (6, 0), (7, 0), (8, 0), (9, 0), (10, 0), (11, 0), (12, 0),
    (13, 0), (14, 0), (15, 0)] ++
  [(16, 0x01), (17, 0x02), (18, 0x03), (19, 0x04), (20, 0x05), (21, 0x06), (22, 0x07), (23, 0x08), (24, 0x57), (25, 0x69),
    (26, 0x72), (27, 0x65), (28, 0x47), (29, 0x72), (30, 0x64), (31, 0x21)]

/-- V-I3. -/
theorem test_initParam :
    (run 0x00000003 (start #v[0, 0, 0, 0, 0] block3)).map (fun t => t.ctx.h) =
      some #v[0x6b08e647, 0xbb67ae85, 0x3c6ef372, 0xa54ff53a, 0x550d507e, 0x93026e89, 0x7af1b0fc, 0x7a84bf5e] := by
  decide +kernel

/-- V-E20: the old context stays valid. The vector's 0x552 leaves out ERR, which R32 sets with any error (log entry 17). -/
theorem test_initParam_range :
    (run 0x00000003 (withCtx ctx32 #v[0x0FE1, 0, 0, 0, 0])).map State.statusWord = some 0x00000556 := by decide +kernel

/-- V-U5, on a buffer that already holds the bytes `00..3f`: one more byte compresses it, and the buffer is cleared before the byte
goes in. -/
theorem test_update_compresses :
    (run 0x00000004
        { withCtx { ctx32 with buf := Vector.ofFn fun k => BitVec.ofNat 8 k.val, buflen := 64 } #v[0, 1, 0, 0, 0] with
          mem := [(0, 0x40)] }).map (fun t => (t.ctx.h[0], t.ctx.t, t.ctx.buf[0], t.ctx.buf[1], t.ctx.buflen)) =
      some (0x69b86edc, 64, 0x40, 0, 1) := by decide +kernel

/-- V-E4, V-E13, V-E14, the last with the ERR bit of R32 (log entry 17). -/
theorem test_update_errors :
    (run 0x00000004 .reset).map State.statusWord = some 0x00000216 ∧
      (run 0x00000004 (withCtx ctx32 #v[0xFFFFFFFF, 0, 0, 0, 0])).map State.statusWord = some 0x00000052 ∧
      (run 0x00000004 (withCtx ctx32 #v[0xFFFFFFFF, 2, 0, 0, 0])).map State.statusWord = some 0x00000556 := by decide +kernel

/-- V-F1, with OUTLEN 4, at the last four bytes of DMEM: nothing is stored past them, and the context is erased. -/
theorem test_final :
    (run 0x00000405 (withCtx ctx32 #v[4092, 0, 0, 0, 0])).map (fun t => (t.mem, t.ctx, t.statusWord)) =
      some ([(4092, 0x69), (4093, 0x21), (4094, 0x7a), (4095, 0x30)], Ctx.erased, 0x00000012) := by decide +kernel

/-- V-F7: the last-node flag enters the second flag word. -/
theorem test_final_lastNode :
    (run 0x00000405 (withCtx { ctx32 with lastNode := true } #v[0, 0, 0, 0, 0])).map (fun t => t.mem) =
      some [(0, 0x24), (1, 0xfc), (2, 0x11), (3, 0x3c)] := by decide +kernel

/-- V-M1: empty key and empty message, OUTLEN 4. -/
theorem test_hmac :
    (run 0x00000406 (start #v[0, 0, 0, 0, 8] [])).map (fun t => (t.mem, t.hidden, t.statusWord)) =
      some ([(8, 0xea), (9, 0xf4), (10, 0xbb), (11, 0x25)], Hidden.zero, 0x00000012) := by decide +kernel

/-- V-E16. -/
theorem test_hmac_range :
    (run 0x00002006 (start #v[0, 0, 0, 0, 0xFF0] [])).map State.statusWord = some 0x00000516 := by decide +kernel

/-- P4: STATUS after SETLN 1, and V-E5, V-E18, the last with the ERR bit of R32 (log entry 17). -/
theorem test_setln :
    (run 0x00010007 (withCtx ctx32 #v[0, 0, 0, 0, 0])).map State.statusWord = some 0x000000D2 ∧
      (run 0x00010007 .reset).map State.statusWord = some 0x00000216 ∧
      (run 0x00010107 (withCtx ctx32 #v[0, 0, 0, 0, 0])).map State.statusWord = some 0x00000156 := by decide +kernel

/-! ## Compression -/

/-- V-G2 and V-G3. -/
theorem test_mixG :
    ((mixG (((Vector.replicate 16 0).set 4 4).set 8 8 |>.set 12 0xC) 0 4 8 12 0x03020100 0x07060504).toList =
      [0x3ae81688, 0, 0, 0, 0x3f7747e7, 0, 0, 0, 0x8b43e31f, 0, 0, 0, 0x8a3be015, 0, 0, 0]) ∧
      (mixG (Vector.replicate 16 0xffffffff) 0 4 8 12 0xffffffff 0xffffffff)[4] = 0x3db81be4 := by decide +kernel

/-- V-T1 and V-T3: the counter carries, and wraps. -/
theorem test_counter :
    (compress1 { ctx32 with t := 0x00000000ffffffc0 } (zeros 64) 64).t = 0x0000000100000000 ∧
      (compress1 { ctx32 with t := 0xffffffffffffffc0 } (zeros 64) 64).t = 0 := by decide +kernel

/-- V-T1: the chaining value takes the counter after its increment. -/
theorem test_compress1 :
    (compress1 { ctx32 with t := 0x00000000ffffffc0 } (zeros 64) 64).h =
      #v[0x59eeb13a, 0xb6843d0b, 0xa311973a, 0x0b4e4c44, 0x2dbc4fe3, 0xf7f3b7d2, 0x301b7cdd, 0x683606e7] := by decide +kernel

/-! ## The host's port -/

/-- The data the bus returns for a read. -/
def readAt (off : BitVec 16) (w : Width) (s : State) : Option Word :=
  (next? (step (pending (.access (.read off w)) s))).bind State.rdata

/-- V-B1, V-B5, V-B6. -/
theorem test_reads :
    readAt 0x000 .w32 .reset = some 0x42325301 ∧ readAt 0x00C .w32 .reset = some 0 ∧
      readAt 0x2000 .w32 .reset = some 0 ∧ readAt 0x008 .w32 .reset = some 0x00000010 := by decide +kernel

/-- V-B3, V-B4. -/
theorem test_bus_errors :
    fault? (step (pending (.access (.read 0x1001 .w16)) .reset)) = some (.busError (.read 0x1001 .w16)) ∧
      fault? (step (pending (.access (.read 0x008 .w8)) .reset)) = some (.busError (.read 0x008 .w8)) := by decide +kernel

/-- V-B2. -/
theorem test_window :
    (next? (step (pending (.access (.write 0x1000 .w32 0x00636261)) .reset))).map (fun t => t.mem) =
      some [(0, 0x61), (1, 0x62), (2, 0x63), (3, 0x00)] ∧
    readAt 0x1001 .w8 (start #v[0, 0, 0, 0, 0] [(0, 0x61), (1, 0x62), (2, 0x63), (3, 0x00)]) = some 0x62 := by decide +kernel

/-- V-B8. -/
theorem test_status_w1c :
    (next? (step (pending (.access (.write 0x008 .w32 0x0000000A))
        { State.reset with status := { State.reset.status with done := true, ovr := true } }))).map State.statusWord =
      some 0x00000010 := by decide +kernel

/-- P5, rows 1 and 2: after `INIT 32` was accepted, `WR ARG1, 3` falls after its completion or before it. -/
theorem test_interleaving :
    (next? (step { busy 0x2001 .reset with inputs := [(HostOp.wr 0x014 3).toInput false] })).map
        (fun t => (t.ctx.valid, t.inputs.length)) = some (true, 1) ∧
    (next? (step { busy 0x2001 .reset with inputs := [(HostOp.wr 0x014 3).toInput true] })).map
        (fun t => (t.args[1], t.statusWord, t.inputs.length)) = some (0, 0x00000019, 0) := by decide +kernel

/-- R98: `final 0x100, 32` as host accesses. -/
theorem test_pseudo :
    (pseudoFinal 0x100 32).map HostOp.toAccess =
      [.write 0x010 .w32 0x100, .write 0x00C .w32 0x00002005, .read 0x008 .w32] := by decide

/-- R31: after a write of 3 to CTRL, a soft reset that sets IE, CTRL reads IE in bit 0 and SRST as 0. -/
theorem test_ctrl_read :
    (next? (step (pending (.access (.write 0x004 .w32 3)) .reset))).bind
      (fun s => (next? (step (pending (.access (.read 0x004 .w32)) s))).map State.rdata) = some (some 1) := by decide +kernel

/-- R97: `INIT #300` is `0x01 | 300<<8`, whose bit 16 R95 makes illegal; within its fields a mnemonic's word is the one decoded. -/
theorem test_assembledWord :
    assembledWord (.init 300) = 0x00012C01 ∧ decodeWord (assembledWord (.init 300)) = .error (.reservedBits 0x01 0x00010000) ∧
      decodeWord (assembledWord (.initKey 20 5)) = .ok (.initKey 20 5) ∧
      decodeWord (assembledWord (.setln true)) = .ok (.setln true) := by decide

/-! ## Witnesses: the hypotheses of each statement can be met -/

/-- The widest fields. -/
theorem witness_DecodeReadsBackEncode : (Instr.initKey 255 255).wf = true ∧ (Instr.final 0).wf = true := by decide
theorem witness_LegalWordIsItsCommandsEncoding : decodeWord 0x00FFFF02 = .ok (.initKey 255 255) := by decide
theorem witness_WordSelectsItsOpcodeRow :
    ({ mnemonic := "SETLN", opc := 0x07, resvMask := 0xFFFEFF00 } : OpcodeRow) ∈ opcodeTable := by decide
theorem witness_AssemblerWords : 255 < 256 ∧ 0 < 256 := by decide

theorem witness_StepRunsDecodedCommand :
    (busy 0x00000004 .reset).Completing ∧ decodeWord (busy 0x00000004 .reset).pcmd = .ok .update := by decide
/-- An engine that accepts `FINAL 255`, with a reset to come after the completion; and a failed engine. -/
theorem witness_AcceptedCommandRunsNext :
    let s := { State.reset with
      inputs := [{ event := .access (.write 0x00C .w32 (encode (.final 255))), duringBusy := true },
                 { event := .hardwareReset, duringBusy := false }] }
    (Instr.final 255).wf = true ∧ s.status.busy = false ∧ s.status.ready = true ∧
      (∀ e ∈ ([{ event := .hardwareReset, duringBusy := false }] : List Input).head?, e.duringBusy = false) ∧
      s.inputs = { event := .access (.write 0x00C .w32 (encode (.final 255))), duringBusy := true } ::
        [{ event := .hardwareReset, duringBusy := false }] ∧
      failed.status.busy = false ∧ failed.status.stfail = true :=
  ⟨by decide, rfl, rfl, by decide, rfl, rfl, rfl⟩
theorem witness_IllegalWordCompletesWithError :
    (busy 0x00000008 .reset).Completing ∧
      decodeWord (busy 0x00000008 .reset).pcmd = .error (.illegalOpcode 0x08) ∧
      (busy 0x01002001 failed).Completing ∧
      decodeWord (busy 0x01002001 failed).pcmd = .error (.reservedBits 0x01 0x01000000) := by decide
/-- A command to complete; and a soft reset of a failed engine, which starts the self-test again. -/
theorem witness_FailedSelfTestBlocksUntilReset :
    (busy 0x00002001 failed).Completing ∧ (busy 0x00002001 failed).status.stfail = true ∧
      ∃ t, step (pending (.access (.write 0x004 .w32 2)) failed) = .next t ∧ failed.status.stfail = true ∧
        failed.status.ready = false ∧ t.status.stfail = false := ⟨by decide, by decide, _, rfl, rfl, rfl, by decide +kernel⟩
/-- READY rises by a reset in a build without a self-test. -/
theorem witness_FailedSelfTestBlocksUntilReset_reset :
    let s := pending .hardwareReset { failed with cfg := Config.default }
    ∃ t, step s = .next t ∧ s.status.ready = false ∧ t.status.ready = true := ⟨_, rfl, rfl, rfl⟩
/-- READY rises by a self-test that passes, whatever the run count at which the free draw says so. -/
theorem witness_FailedSelfTestBlocksUntilReset_passes (n : Nat) (h : Config.selftestFail n = false) :
    let s := { State.resetOf { dmemSize := 64, selftestPresent := true, accel := false } with selfTests := n }
    ∃ t, step s = .next t ∧ s.status.ready = false ∧ t.status.ready = true := ⟨_, rfl, rfl, congrArg not h⟩
theorem witness_IdleEngineHoldsItsState : State.reset.status.busy = false ∧ State.reset.inputs = [] := by decide

/-- Every error code is required somewhere, so no clause of the order is empty. -/
theorem witness_CommandReportsFirstFailingCheck :
    requiredError (.init 32) failed = .unavail ∧ requiredError (.final 0) .reset = .state ∧
      requiredError (.initKey 33 0) .reset = .outlen ∧ requiredError (.initKey 32 33) .reset = .keylen ∧
      requiredError .initParam (start #v[4065, 0, 0, 0, 0] []) = .range ∧ requiredError (.hmac 32) .reset = .ok ∧
      (busy 0x00000004 .reset).Completing := by
  refine ⟨?_, ?_, ?_, ?_, ?_, ?_, by decide⟩ <;>
    simp [requiredError, failed, start, State.reset, State.resetOf, State.ofReset, Status.afterReset, Instr.needsContext,
      Instr.outlen?, Instr.keylen?, badLength, badRange, State.ranges, State.argNat, State.arg, Ctx.erased, Config.default]
theorem witness_CommandsWithoutContextRaiseState :
    State.reset.status.stfail = false ∧ State.reset.ctx.valid = false := by decide
theorem witness_FinalEndsTheContext :
    (withCtx ctx32 #v[0, 0, 0, 0, 0]).status.stfail = false ∧
      ∃ t, exec (.final 32) (withCtx ctx32 #v[0, 0, 0, 0, 0]) = .next t ∧ t.status.errcode = .ok :=
  ⟨rfl, _, exec_eq _ _, by decide +kernel⟩
/-- An invalid range whose 32-bit sum would wrap, and an empty one at the same address. -/
theorem witness_RangeCheckDoesNotWrap :
    let bad := withCtx ctx32 #v[0xFFFFFFFF, 2, 0, 0, 0]
    let empty := withCtx ctx32 #v[0xFFFFFFFF, 0, 0, 0, 0]
    bad.status.stfail = false ∧ bad.ctx.valid = true ∧ bad.args[1] ≠ 0 ∧ bad.cfg.dmemSize < bad.args[0].toNat + bad.args[1].toNat ∧
      empty.ctx.valid = true ∧ empty.args[1] = 0 := by decide +kernel
/-- Two states that differ in the data alone. -/
theorem witness_ErrorCodeIgnoresData :
    let s := start #v[0, 1, 0, 0, 0] [(0, 1)]
    let s' := start #v[0, 1, 0, 0, 0] [(0, 2)]
    s.cfg = s'.cfg ∧ s.args = s'.args ∧ s.status.stfail = s'.status.stfail ∧ s.ctx.valid = s'.ctx.valid ∧ s.mem ≠ s'.mem ∧
      ∃ t t', exec (.hmac 1) s = .next t ∧ exec (.hmac 1) s' = .next t' :=
  ⟨rfl, rfl, rfl, rfl, by decide, _, _, exec_eq _ _, exec_eq _ _⟩

theorem witness_InitCreatesContext : State.reset.status.stfail = false ∧ 1 ≤ 1 ∧ 1 ≤ 32 ∧ 32 ≤ 32 := by decide
/-- A block that ends exactly at the end of DMEM. -/
theorem witness_InitParamCreatesContext :
    let s := start #v[4064, 0, 0, 0, 0] []
    s.status.stfail = false ∧ (s.arg 0).toNat + 32 ≤ s.cfg.dmemSize := by decide
/-- A block with every byte of a field in use, at the end of DMEM. -/
theorem witness_ParameterFieldsEnterChainingValue :
    let p := { ParamBlock.sequential 32 0 with leafLength := 0x04030201, xofLength := 0x0605 }
    let s := start #v[4064, 0, 0, 0, 0] ((List.range 32).map fun k => (4064 + k, byteAt p.bytes k))
    s.status.stfail = false ∧ (s.arg 0).toNat + 32 ≤ s.cfg.dmemSize ∧
      ∀ k, k < 32 → s.dmemByte ((s.arg 0).toNat + k) = byteAt p.bytes k := by decide +kernel
/-- The block of `PARAM(32, 0)` in DMEM. -/
theorem witness_InitParamOfDefaultBlockIsInit :
    let s := start #v[0, 0, 0, 0, 0] ((List.range 32).map fun k => (k, byteAt (param 32 0) k))
    1 ≤ 32 ∧ 32 ≤ 32 ∧ (s.arg 0).toNat + 32 ≤ s.cfg.dmemSize ∧
      ∀ k, k < 32 → s.dmemByte ((s.arg 0).toNat + k) = if k = 0 then BitVec.ofNat 8 32 else if k = 2 ∨ k = 3 then 1 else 0 := by
  decide +kernel
/-- V-E12: a key that ends exactly at the end of DMEM, and the shortest one. -/
theorem witness_InitKeyBuffersPaddedKey :
    let s := start #v[0x0FE0, 0, 0, 0, 0] []
    s.status.stfail = false ∧ 1 ≤ 32 ∧ (s.arg 0).toNat + 32 ≤ s.cfg.dmemSize ∧ (s.arg 0).toNat + 1 ≤ s.cfg.dmemSize := by decide
/-- Data that ends at the end of DMEM, and no data at an address outside it. -/
theorem witness_UpdateAbsorbsDmemBytes :
    let s := withCtx ctx32 #v[1, 4095, 0, 0, 0]
    let e := withCtx ctx32 #v[0xFFFFFFFF, 0, 0, 0, 0]
    s.status.stfail = false ∧ s.ctx.valid = true ∧ (s.arg 0).toNat + (s.arg 1).toNat ≤ s.cfg.dmemSize ∧
      e.status.stfail = false ∧ e.ctx.valid = true ∧ e.arg 1 = 0 := by decide +kernel
theorem witness_EmptyUpdateIsNoOp :
    let s := withCtx ctx32 #v[0xFFFFFFFF, 0, 0, 0, 0]
    s.status.stfail = false ∧ s.ctx.valid = true ∧ s.arg 1 = 0 := by decide +kernel
theorem witness_FinalWritesDigestAndErases :
    let s := withCtx ctx32 #v[4064, 0, 0, 0, 0]
    s.status.stfail = false ∧ s.ctx.valid = true ∧ 1 ≤ 32 ∧ (s.arg 0).toNat + 32 ≤ s.cfg.dmemSize := by decide +kernel
/-- A key of more than one block and a key of none; the output at the end of DMEM. -/
theorem witness_HmacWritesNestedHash :
    let s := start #v[0, 4096, 0, 65, 4064] []
    let e := start #v[0xFFFFFFFF, 0, 0xFFFFFFFF, 0, 4064] []
    s.status.stfail = false ∧ (s.arg 0).toNat + (s.arg 1).toNat ≤ s.cfg.dmemSize ∧
      (s.arg 2).toNat + (s.arg 3).toNat ≤ s.cfg.dmemSize ∧ (s.arg 4).toNat + 32 ≤ s.cfg.dmemSize ∧
      e.status.stfail = false ∧ e.arg 1 = 0 ∧ e.arg 3 = 0 ∧ (e.arg 4).toNat + 32 ≤ e.cfg.dmemSize := by decide
theorem witness_SetlnWritesLastNode :
    let s := withCtx ctx32 #v[0, 0, 0, 0, 0]
    s.status.stfail = false ∧ s.ctx.valid = true := by decide +kernel

/-- Each command that stores nothing, with its effect. -/
theorem witness_NonStoringCommandsFrame :
    let s := withCtx ctx32 #v[0, 1, 0, 0, 0]
    ∀ i ∈ [Instr.init 32, .initKey 32 1, .initParam, .update, .setln true],
      requiredError i s = .ok ∧ ∃ t, exec i s = .next t := by
  intro s i hi
  refine ⟨?_, _, exec_eq i s⟩
  simp only [List.mem_cons, List.not_mem_nil, or_false] at hi
  rcases hi with rfl | rfl | rfl | rfl | rfl <;>
    simp [s, requiredError, withCtx, start, State.reset, State.resetOf, State.ofReset, Status.afterReset, Instr.needsContext,
      Instr.outlen?, Instr.keylen?, badLength, badRange, State.ranges, State.argNat, State.arg, ctx32, pinit, Config.default]
/-- Both commands that store, with their effect. -/
theorem witness_StoringCommandsFrame :
    let s := withCtx ctx32 #v[0, 1, 0, 1, 64]
    requiredError (.final 32) s = .ok ∧ requiredError (.hmac 32) s = .ok ∧ (∃ t, exec (.final 32) s = .next t) ∧
      ∃ t, exec (.hmac 32) s = .next t := by
  intro s
  refine ⟨?_, ?_, ⟨_, exec_eq _ s⟩, ⟨_, exec_eq _ s⟩⟩ <;>
    simp [s, requiredError, withCtx, start, State.reset, State.resetOf, State.ofReset, Status.afterReset, Instr.needsContext,
      Instr.outlen?, Instr.keylen?, badLength, badRange, State.ranges, State.argNat, State.arg, ctx32, pinit, Config.default]
/-- A host write changes a byte. -/
theorem witness_DmemChangesOnlyWhereStored :
    ∃ t, step (pending (.access (.write 0x1000 .w8 7)) (start #v[0, 0, 0, 0, 0] [(0, 5)])) = .next t ∧
      t.dmemByte 0 ≠ (start #v[0, 0, 0, 0, 0] [(0, 5)]).dmemByte 0 := ⟨_, rfl, by decide +kernel⟩
/-- A FINAL changes a byte: the first byte of V-F1 over a zero. -/
theorem witness_DmemChangesOnlyWhereStored_final :
    ((run 0x00000105 { withCtx ctx32 #v[0, 0, 0, 0, 0] with mem := [(0, 0)] }).map fun t => t.dmemByte 0) = some 0x69 := by
  decide +kernel
theorem witness_ArgRegistersChangeOnlyByHost :
    ∃ t, step (pending (.access (.write 0x020 .w32 7)) .reset) = .next t ∧ t.args ≠ State.reset.args :=
  ⟨_, rfl, by decide +kernel⟩

/-- A context with a full buffer. -/
theorem witness_StreamingEquivalence : ({ ctx32 with buflen := 64 } : Ctx).buflen ≤ 64 ∧ ctx32.buflen ≤ 64 := by decide +kernel
theorem witness_UpdateHoldsBackLastBlock : ctx32.Legal ∧ zeros 65 ≠ [] ∧ zeros 64 ≠ [] :=
  ⟨⟨by decide, by intro k _; simp [ctx32, pinit], rfl, rfl, rfl, nofun⟩, by decide, by decide⟩
/-- The two clauses at their boundaries: 64 and 65 bytes into an empty buffer, 0 and 1 into a full one. -/
theorem witness_BufferLengthTrajectory :
    ctx32.buflen ≤ 64 ∧ 1 ≤ (zeros 64).length ∧ (zeros 64).length ≤ 64 - ctx32.buflen ∧
      64 - ctx32.buflen < (zeros 65).length ∧ 64 - ({ ctx32 with buflen := 64 } : Ctx).buflen < (zeros 1).length := by
  decide +kernel
theorem witness_CounterPlusBufferCountsBytes : ({ ctx32 with buflen := 64 } : Ctx).buflen ≤ 64 := by decide +kernel

theorem witness_MixingFunctionResult :
    (0 : Fin 16) ≠ 4 ∧ (0 : Fin 16) ≠ 8 ∧ (0 : Fin 16) ≠ 12 ∧ (4 : Fin 16) ≠ 8 ∧ (4 : Fin 16) ≠ 12 ∧ (8 : Fin 16) ≠ 12 := by decide
/-- The first and the last diagonal of R124. -/
theorem witness_DisjointMixingCommutes : ([0, 5, 10, 15, 3, 4, 9, 14] : List (Fin 16)).Nodup := by decide
theorem witness_CounterCarriesOnce : 0 ≤ 64 ∧ 64 ≤ 64 := by decide
theorem witness_DigestIsLittleEndian : (31 : Fin 32).val < 32 ∧ (0 : Fin 32).val < 1 := by decide
theorem witness_FinalTruncates :
    let s := withCtx ctx32 #v[0, 0, 0, 0, 0]
    1 ≤ 32 ∧ ∃ t1 t2, exec (.final 1) s = .next t1 ∧ exec (.final 32) s = .next t2 ∧ t1.status.errcode = .ok ∧
      t2.status.errcode = .ok :=
  ⟨by decide, _, _, exec_eq _ _, exec_eq _ _, by decide +kernel, by decide +kernel⟩
theorem witness_HmacTruncates :
    1 ≤ 32 ∧ ∃ t1 t2, exec (.hmac 1) State.reset = .next t1 ∧ exec (.hmac 32) State.reset = .next t2 ∧
      t1.status.errcode = .ok ∧ t2.status.errcode = .ok :=
  ⟨by decide, _, _, exec_eq _ _, exec_eq _ _, by decide +kernel, by decide +kernel⟩
theorem witness_ZeroPaddedKeysCoincide : ([0xA0, 0xA1] : List Byte).length + 62 ≤ 64 := by decide

/-- A host event pending, at an idle engine and at one that is executing. -/
theorem pending_hostTurn (e : Event) (s : State) : (pending e s).HostTurn e [] := ⟨true, rfl, fun _ => rfl⟩

theorem witness_BusErrorExactlyOnUnacceptedAccess :
    ¬accepted (0x1001 : BitVec 16).toNat .w16 ∧ accepted (0xFFFF : BitVec 16).toNat .w8 ∧
      (pending (.access (.read 0x1001 .w16)) .reset).HostTurn (.access (.read 0x1001 .w16)) [] ∧
      (pending (.access (.write 0xFFFF .w8 1)) .reset).HostTurn (.access (.write 0xFFFF .w8 1)) [] :=
  ⟨by decide, by decide, pending_hostTurn _ _, pending_hostTurn _ _⟩
/-- The first offset and the last, idle and busy. -/
theorem witness_RegisterReadReturnsItsValue :
    (0x000 : BitVec 16).toNat < 0x1000 ∧ (0x000 : BitVec 16).toNat % 4 = 0 ∧ (0xFFC : BitVec 16).toNat < 0x1000 ∧
      (0xFFC : BitVec 16).toNat % 4 = 0 ∧
      (pending (.access (.read 0x000 .w32)) .reset).HostTurn (.access (.read 0x000 .w32)) [] ∧
      (pending (.access (.read 0xFFC .w32)) (busy 4 .reset)).HostTurn (.access (.read 0xFFC .w32)) [] :=
  ⟨by decide, by decide, by decide, by decide, pending_hostTurn _ _, pending_hostTurn _ _⟩
/-- The first byte of the window, and the last byte of the aperture. -/
theorem witness_WindowReadIsLittleEndian :
    0x1000 ≤ (0x1000 : BitVec 16).toNat ∧ accepted (0x1000 : BitVec 16).toNat .w32 ∧ accepted (0xFFFF : BitVec 16).toNat .w8 ∧
      (pending (.access (.read 0x1000 .w32)) .reset).HostTurn (.access (.read 0x1000 .w32)) [] ∧
      (pending (.access (.read 0xFFFF .w8)) (busy 4 .reset)).HostTurn (.access (.read 0xFFFF .w8)) [] :=
  ⟨by decide, by decide, by decide, pending_hostTurn _ _, pending_hostTurn _ _⟩
/-- The last halfword of DMEM. -/
theorem witness_WindowWriteIsLittleEndian :
    let s := pending (.access (.write 0x1FFE .w16 0xBEEF)) .reset
    0x1000 ≤ (0x1FFE : BitVec 16).toNat ∧ (0x1FFE : BitVec 16).toNat < 0x1000 + s.cfg.dmemSize ∧
      accepted (0x1FFE : BitVec 16).toNat .w16 ∧ s.status.busy = false ∧
      s.HostTurn (.access (.write 0x1FFE .w16 0xBEEF)) [] :=
  ⟨by decide, by decide, by decide, rfl, pending_hostTurn _ _⟩
theorem witness_IdleRegisterWritesTakeEffect :
    State.reset.status.busy = false ∧
      (pending (.access (.write 0x00C .w32 7)) .reset).HostTurn (.access (.write 0x00C .w32 7)) [] ∧
      (pending (.access (.write 0x020 .w32 7)) .reset).HostTurn
        (.access (.write (BitVec.ofNat 16 (0x010 + 4 * (4 : Fin 5).val)) .w32 7)) [] :=
  ⟨rfl, pending_hostTurn _ _, pending_hostTurn _ _⟩
/-- CMD, ARG4, the last byte of the window, CTRL with SRST and without, STATUS, and a reserved offset. -/
theorem witness_BusyWritesAreDropped :
    (busy 4 .reset).status.busy = true ∧ accepted (0x00C : BitVec 16).toNat .w32 ∧ accepted (0x020 : BitVec 16).toNat .w32 ∧
      accepted (0x1FFF : BitVec 16).toNat .w8 ∧ accepted (0x004 : BitVec 16).toNat .w32 ∧ (3 : Word).getLsbD 1 = true ∧
      accepted (0x008 : BitVec 16).toNat .w32 ∧ (1 : Word).getLsbD 1 = false ∧ accepted (0x024 : BitVec 16).toNat .w32 ∧
      ignoresWrites (0x024 : BitVec 16).toNat ∧
      (pending (.access (.write 0x00C .w32 1)) (busy 4 .reset)).HostTurn (.access (.write 0x00C .w32 1)) [] ∧
      (pending (.access (.write 0x008 .w32 1)) (busy 4 .reset)).HostTurn (.access (.write 0x008 .w32 1)) [] ∧
      (pending (.access (.write 0x024 .w32 1)) (busy 4 .reset)).HostTurn (.access (.write 0x024 .w32 1)) [] ∧
      (pending (.access (.write 0x1FFF .w8 1)) (busy 4 .reset)).HostTurn (.access (.write 0x1FFF .w8 1)) [] ∧
      (pending (.access (.write 0x004 .w32 3)) (busy 4 .reset)).HostTurn (.access (.write 0x004 .w32 3)) [] :=
  ⟨rfl, by decide, by decide, by decide, by decide, by decide, by decide, by decide, by decide, by decide, pending_hostTurn _ _,
    pending_hostTurn _ _, pending_hostTurn _ _, pending_hostTurn _ _, pending_hostTurn _ _⟩
/-- ID, H0, the last reserved register offset, and the first offset past DMEM. -/
theorem witness_IgnoredWritesChangeNothing :
    accepted (0x000 : BitVec 16).toNat .w32 ∧ ignoresWrites (0x000 : BitVec 16).toNat ∧ accepted (0x040 : BitVec 16).toNat .w32 ∧
      ignoresWrites (0x040 : BitVec 16).toNat ∧ ignoresWrites (0xFFC : BitVec 16).toNat ∧
      accepted (0x2000 : BitVec 16).toNat .w8 ∧ 0x1000 + State.reset.cfg.dmemSize ≤ (0x2000 : BitVec 16).toNat ∧
      (pending (.access (.write 0x040 .w32 1)) (busy 4 .reset)).HostTurn (.access (.write 0x040 .w32 1)) [] ∧
      (pending (.access (.write 0x2000 .w8 1)) .reset).HostTurn (.access (.write 0x2000 .w8 1)) [] :=
  ⟨by decide, by decide, by decide, by decide, by decide, by decide, by decide, pending_hostTurn _ _, pending_hostTurn _ _⟩
theorem witness_StatusAndControlWrites :
    (1 : Word).getLsbD 1 = false ∧
      (pending (.access (.write 0x008 .w32 10)) (busy 4 .reset)).HostTurn (.access (.write 0x008 .w32 10)) [] ∧
      (pending (.access (.write 0x004 .w32 1)) (busy 4 .reset)).HostTurn (.access (.write 0x004 .w32 1)) [] :=
  ⟨by decide, pending_hostTurn _ _, pending_hostTurn _ _⟩
/-- Idle and busy. -/
theorem witness_SoftResetKeepsDmem :
    State.reset.status.busy = false ∧ (busy 4 .reset).status.busy = true ∧ (3 : Word).getLsbD 1 = true ∧
      (pending (.access (.write 0x004 .w32 3)) .reset).HostTurn (.access (.write 0x004 .w32 3)) [] ∧
      (pending (.access (.write 0x004 .w32 3)) (busy 4 .reset)).HostTurn (.access (.write 0x004 .w32 3)) [] :=
  ⟨rfl, rfl, by decide, pending_hostTurn _ _, pending_hostTurn _ _⟩
/-- A reset while a command is executing. -/
theorem witness_HardwareResetForgetsDmem : (pending .hardwareReset (busy 4 .reset)).HostTurn .hardwareReset [] :=
  pending_hostTurn _ _
theorem witness_SelfTestDecidesAvailability :
    let s := State.resetOf { dmemSize := 64, selftestPresent := true, accel := false }
    s.status.busy = true ∧ s.status.ready = false ∧ s.status.stfail = false ∧ ∀ i ∈ s.inputs.head?, i.duringBusy = false := by
  decide
theorem witness_InterruptFollowsCompletion :
    (busy 4 .reset).Completing ∧ (∃ t, step (busy 4 .reset) = .next t) ∧ State.reset.status.busy = false ∧
      (pending (.access (.write 0x00C .w32 4)) .reset).HostTurn (.access (.write 0x00C .w32 4)) [] ∧
      (∃ t, step (pending (.access (.write 0x00C .w32 4)) .reset) = .next t) ∧ (2 : Word).getLsbD 1 = true ∧
      (pending (.access (.write 0x008 .w32 2)) .reset).HostTurn (.access (.write 0x008 .w32 2)) [] ∧
      ∃ t, step (pending (.access (.write 0x008 .w32 2)) .reset) = .next t :=
  ⟨by decide, ⟨_, rfl⟩, rfl, pending_hostTurn _ _, ⟨_, rfl⟩, by decide, pending_hostTurn _ _, ⟨_, rfl⟩⟩

/-- The default build, the smallest and the largest. -/
theorem witness_ResetMeetsInvariant :
    Config.default.wf ∧ ({ dmemSize := 64, selftestPresent := true, accel := false } : Config).wf ∧
      ({ dmemSize := 0xF000, selftestPresent := false, accel := true } : Config).wf := by decide
/-- The state after reset meets the invariant, and it steps. -/
theorem witness_StepKeepsInvariant : State.reset.Inv ∧ ∃ t, step State.reset = .next t :=
  ⟨⟨by decide, ⟨by decide, by intro k _; simp [State.reset, State.resetOf, State.ofReset, Ctx.erased], rfl, rfl, rfl,
    fun _ => rfl⟩, rfl, ⟨by decide, by decide, by decide, by decide⟩, rfl, rfl⟩, _, rfl⟩

/-- A step that answers a next state and one that faults, each in a build with an alternative datapath. -/
theorem witness_DatapathChoiceIsUnobservable :
    let s := { State.reset with cfg := { Config.default with accel := true } }
    (∃ t, step (busy 0x00002001 s) = .next t ∧ t.ctx.valid = true) ∧
      step (pending (.access (.read 0x001 .w32)) s) = .fault (.busError (.read 0x001 .w32)) :=
  ⟨⟨_, rfl, rfl⟩, rfl⟩

end Sys2Proof.Tests
end

section
/-! SUPPORT. The encoder read back, what an event of the host and an illegal word do, and the invariant of the machine: for each
operation of the context, of STATUS and of the state, the lemma that it keeps what is legal, up to the step itself. -/

namespace Sys2Proof

/-! ## The encoder read back (R90, R94) -/

@[simp] theorem extractLsb'_8_layoutK (k l o : Byte) : (layoutK k l o).extractLsb' 8 8 = l := (bytes_of_append o l k 0).2.1

@[simp] theorem extractLsb'_16_layoutK (k l o : Byte) : (layoutK k l o).extractLsb' 16 8 = k := (bytes_of_append o l k 0).2.2.1

@[simp] theorem extractLsb'_24_layoutK (k l o : Byte) : (layoutK k l o).extractLsb' 24 8 = 0 := (bytes_of_append o l k 0).2.2.2

/-- The word of a well-formed command spells that command. -/
theorem spells_encode {i : Instr} (h : i.wf = true) : Spells (encode i) i := by
  cases i with
  | init n | final n | hmac n =>
    simp only [Instr.wf, decide_eq_true_eq] at h
    simp [Spells, encode, toNat_lengthField h]
  | initKey n k =>
    simp only [Instr.wf, Bool.and_eq_true, decide_eq_true_eq] at h
    simp [Spells, encode, toNat_lengthField h.1, toNat_lengthField h.2]
  | initParam | update => simp [Spells, encode]
  | setln b =>
    refine ⟨opcOf_layoutS b _, lnOf_layoutS b _, ?_⟩
    rw [encode, layoutS_eq_layoutK]
    cases b <;> simp

/-- The decoder reads back every well-formed command (R94). -/
theorem decodeWord_encode {i : Instr} (h : i.wf = true) : decodeWord (encode i) = .ok i :=
  (decodeWord_ok_iff _ _).2 (spells_encode h)

end Sys2Proof

namespace Sys2Proof.Machine

/-! ## Legal contexts (R22 to R28) -/

theorem Ctx.legal_erased : Ctx.erased.Legal where
  buflen_le := by simp
  tail_zero := by simp
  f0_zero := rfl
  f1_zero := rfl
  t_blocks := rfl
  erased _ := rfl

/-- A valid context owes nothing to R28. -/
theorem Ctx.legal_pinit (P : List Byte) : (pinit P).Legal where
  buflen_le := by simp [pinit]
  tail_zero := by simp [pinit]
  f0_zero := rfl
  f1_zero := rfl
  t_blocks := rfl
  erased h := by simp [pinit] at h

/-- `UPD` keeps a valid context legal (R171, R173). -/
theorem Ctx.Legal.upd {c : Ctx} (h : c.Legal) (hv : c.valid = true) (d : List Byte) : (upd c d).Legal := by
  obtain ⟨hf0, hf1, -, hvalid⟩ := upd_rest c d
  obtain ⟨htail, ht⟩ := upd_tail c d h.tail_zero h.t_blocks
  exact
    { buflen_le := upd_buflen_le c d h.buflen_le
      tail_zero := htail
      f0_zero := hf0.trans h.f0_zero
      f1_zero := hf1.trans h.f1_zero
      t_blocks := ht
      erased := fun hi => by rw [hvalid, hv] at hi; cases hi }

/-- Setting the last-node flag keeps a valid context legal (R196). -/
theorem Ctx.Legal.setLastNode {c : Ctx} (h : c.Legal) (hv : c.valid = true) (b : Bool) : { c with lastNode := b }.Legal :=
  { h with erased := fun hi => by cases hv.symm.trans hi }

/-! ## The hidden stores between commands (R29, R130, R156, R216) -/

@[simp] theorem Hidden.eraseWork_zero : Hidden.zero.eraseWork = Hidden.zero := rfl

theorem Hidden.eraseInitKeyBlock_zero :
    { Hidden.zero with initKeyBlock := Vector.replicate 64 0 } = Hidden.zero := rfl

@[simp] theorem Hidden.afterHmac_zero : Hidden.zero.afterHmac Ctx.erased = Hidden.zero := rfl

/-! ## Legal status bits (R32, R33, R266) -/

theorem Status.legal_afterReset (cfg : Config) : (Status.afterReset cfg).Legal cfg := by
  cases h : cfg.selftestPresent <;> constructor <;> simp [Status.afterReset, h]

section
variable {cfg : Config} {st : Status} (h : st.Legal cfg)
include h

theorem Status.Legal.accepted : st.accepted.Legal cfg where
  not_both := h.not_both
  pending hr hf := ⟨rfl, (h.pending hr hf).2⟩
  failed := h.failed
  busy_clear _ := ⟨rfl, rfl⟩

/-- A completion ends BUSY, so the engine must have left its self-test behind. -/
theorem Status.Legal.completed (ha : st.ready = true ∨ st.stfail = true) (e : ErrCode) : (st.completed e).Legal cfg where
  not_both := h.not_both
  pending hr hf := by
    rcases ha with ha | ha
    · simp [ha] at hr
    · simp [ha] at hf
  failed := h.failed
  busy_clear hb := by simp at hb

theorem Status.Legal.overrun : st.overrun.Legal cfg where
  not_both := h.not_both
  pending := h.pending
  failed := h.failed
  busy_clear := h.busy_clear

theorem Status.Legal.acknowledge (v : Word) : (st.acknowledge v).Legal cfg where
  not_both := h.not_both
  pending := h.pending
  failed := h.failed
  busy_clear hb := by
    obtain ⟨hdone, herr⟩ := h.busy_clear hb
    exact ⟨by simp [hdone], herr⟩

theorem Status.Legal.selfTested (hp : st.selfTestPending = true) (mismatch : Bool) : (st.selfTested mismatch).Legal cfg := by
  simp only [Status.selfTestPending, Bool.and_eq_true, Bool.not_eq_true'] at hp
  obtain ⟨⟨-, hr⟩, hf⟩ := hp
  exact
    { not_both := by simp
      pending := by cases mismatch <;> simp
      failed := fun _ => (h.pending hr hf).2
      busy_clear := by simp }

end

/-! ## What an event and an illegal word do (R95, R231, R70) -/

/-- An illegal word completes with E_ILLEGAL, after E_UNAVAIL. -/
theorem State.runIllegal_eq_complete (s : State) :
    s.runIllegal = s.complete (if s.status.stfail then .unavail else .illegal) := by
  cases hf : s.status.stfail
  · exact State.runCommand_error (State.checkAll_avail hf _) (by simp) _
  · exact State.runCommand_error (State.checkAll_unavail hf _) (by simp) _

/-- An event that does not fault is a hardware reset, a read or an accepted write. -/
theorem State.event_cases {s t : State} {e : Event} (h : s.event e = .next t) :
    (e = .hardwareReset ∧ t = s.hardwareReset) ∨
      (∃ off w, e = .access (.read off w) ∧ t = { s with rdata := some (s.busRead off.toNat w) }) ∨
      ∃ off w v, e = .access (.write off w v) ∧ accepted off.toNat w ∧ t = s.busWrite off.toNat w v := by
  cases e with
  | hardwareReset => cases h; exact .inl ⟨rfl, rfl⟩
  | access a =>
    cases a with
    | read off w =>
      simp only [State.event, State.access] at h
      split at h <;> cases h
      exact .inr (.inl ⟨off, w, rfl, rfl⟩)
    | write off w v =>
      simp only [State.event, State.access] at h
      split at h <;> cases h
      next ha => exact .inr (.inr ⟨off, w, v, rfl, (acceptsAccess_iff _ _).1 ha, rfl⟩)

/-- An accepted access to the window never runs over the end of DMEM, whose size is a multiple of 4 (R9, R66). -/
theorem accepted_within {off size : Nat} {w : Width} (ha : accepted off w) (hw : size % 4 = 0) (hlo : 0x1000 ≤ off)
    (hhi : off < 0x1000 + size) : off - 0x1000 + w.bytes ≤ size := by
  rcases ha with ⟨rfl, h4⟩ | ⟨-, rfl | ⟨rfl, h2⟩⟩ <;> simp only [Width.bytes] <;> omega

/-! ## The invariant, operation by operation -/

theorem State.inv_ofReset {cfg : Config} {mem : Memory} (hcfg : cfg.wf) (hwf : Memory.wf mem = true)
    (hin : Memory.within mem cfg.dmemSize = true) (epoch selfTests : Nat) (inputs : List Input) (rdata : Option Word) :
    (State.ofReset cfg mem epoch selfTests inputs rdata).Inv where
  cfg_wf := hcfg
  ctx_legal := Ctx.legal_erased
  hidden_zero := rfl
  status_legal := Status.legal_afterReset cfg
  mem_wf := hwf
  mem_within := hin

section
variable {s : State} (h : s.Inv)
include h

theorem State.Inv.hardwareReset : s.hardwareReset.Inv := State.inv_ofReset h.cfg_wf rfl rfl _ _ _ _

theorem State.Inv.softReset : s.softReset.Inv :=
  { State.inv_ofReset h.cfg_wf h.mem_wf h.mem_within s.epoch s.selfTests s.inputs s.rdata with }

theorem State.Inv.acceptCommand (w : Word) : (s.acceptCommand w).Inv := { h with status_legal := h.status_legal.accepted }

theorem State.Inv.dropWrite : s.dropWrite.Inv := { h with status_legal := h.status_legal.overrun }

theorem State.Inv.acknowledge (v : Word) : (s.acknowledge v).Inv := { h with status_legal := h.status_legal.acknowledge v }

theorem State.Inv.complete (ha : s.status.ready = true ∨ s.status.stfail = true) (e : ErrCode) : (s.complete e).Inv :=
  { h with status_legal := h.status_legal.completed ha e }

theorem State.Inv.selfTest (hp : s.status.selfTestPending = true) : s.selfTest.Inv :=
  { h with status_legal := h.status_legal.selfTested hp _ }

/-- A store inside DMEM keeps it canonical and inside its address space (R60, R61). -/
theorem State.Inv.memWrite {a : Nat} {b : List Byte} (hr : b.length = 0 ∨ a + b.length ≤ s.cfg.dmemSize) :
    (s.memWrite a b).Inv :=
  { h with
    mem_wf := Memory.wf_writeBytes _ _ _ h.mem_wf
    mem_within := Memory.within_writeBytes _ _ _ _ h.mem_within hr }

/-- CTRL writes IE, and with SRST drops the write or resets (R31, R264, R271). -/
theorem State.Inv.writeCtrl (v : Word) : (s.writeCtrl v).Inv := by
  have hie : { s with ie := v.getLsbD 0 }.Inv := { h with }
  unfold State.writeCtrl
  dsimp only
  split
  · split
    · exact hie.dropWrite
    · exact hie.softReset
  · exact hie

theorem State.Inv.writeReg (r : Reg) (v : Word) : (s.writeReg r v).Inv := by
  cases r with
  | ctrl => exact h.writeCtrl v
  | status => exact h.acknowledge v
  | cmd =>
    simp only [State.writeReg]
    split
    · exact h.dropWrite
    · exact h.acceptCommand v
  | arg i =>
    simp only [State.writeReg]
    split
    · exact h.dropWrite
    · exact { h with }
  | id | h _ | t0 | t1 | f0 | f1 | buflen | buf _ => exact h

theorem State.Inv.busWrite {off : Nat} {w : Width} (v : Word) (ha : accepted off w) : (s.busWrite off w v).Inv := by
  rcases busWrite_cases s off w v ha with ⟨r, -, -, -, e⟩ | ⟨hlo, hhi, e⟩ | e <;> rw [e]
  · exact h.writeReg r v
  · split
    · exact h.dropWrite
    · have hin := accepted_within ha h.cfg_wf.1 hlo hhi
      have hlen : ((bytesOfWord v).take w.bytes).length ≤ w.bytes := List.length_take_le _ _
      exact h.memWrite (.inr (by omega))
  · exact h

theorem State.Inv.event {t : State} {e : Event} (he : s.event e = .next t) : t.Inv := by
  rcases State.event_cases he with ⟨-, rfl⟩ | ⟨off, w, -, rfl⟩ | ⟨off, w, v, -, ha, rfl⟩
  · exact h.hardwareReset
  · exact { h with }
  · exact h.busWrite v ha

/-- The effect of a command whose checks all pass: the context checks make `UPD` and SETLN start from a valid context, and the range
checks keep every store inside DMEM. -/
theorem State.Inv.effectOf {i : Instr} (hok : s.checkAll (checksOf i s) = .ok) : (effectOf i s).Inv := by
  obtain ⟨-, hchecks⟩ := (checkAll_ok_iff i s).1 hok
  cases i with
  | init n => exact { h with ctx_legal := Ctx.legal_pinit _ }
  | initKey n k =>
    exact
      { h with
        ctx_legal := (Ctx.legal_pinit _).upd rfl _
        hidden_zero := by simp only [Machine.effectOf, h.hidden_zero, Hidden.eraseInitKeyBlock_zero] }
  | initParam => exact { h with ctx_legal := Ctx.legal_pinit _ }
  | update =>
    have hv : s.ctx.valid = true := hchecks (.state, s.ctx.valid) (by simp [checksOf])
    exact
      { h with
        ctx_legal := h.ctx_legal.upd hv _
        hidden_zero := by simp [Machine.effectOf, h.hidden_zero] }
  | final n =>
    simp only [checksOf, List.forall_mem_cons, validRange_iff] at hchecks
    obtain ⟨-, -, hrange, -⟩ := hchecks
    exact
      { h.memWrite (a := s.argNat 0) (b := (fin s.ctx n).2) (by rw [length_fin]; omega) with
        ctx_legal := Ctx.legal_erased
        hidden_zero := by simp [Machine.effectOf, h.hidden_zero] }
  | hmac n =>
    simp only [checksOf, List.forall_mem_cons, Bool.and_eq_true, validRange_iff] at hchecks
    obtain ⟨-, ⟨-, hrange⟩, -⟩ := hchecks
    exact
      { h.memWrite (a := s.argNat 4) (b := _) (by rw [List.length_take]; omega) with
        hidden_zero := by simp [Machine.effectOf, h.hidden_zero] }
  | setln b =>
    have hv : s.ctx.valid = true := hchecks (.state, s.ctx.valid) (by simp [checksOf])
    exact { h with ctx_legal := h.ctx_legal.setLastNode hv b }

theorem State.Inv.exec {t : State} {i : Instr} (ha : s.status.ready = true ∨ s.status.stfail = true)
    (he : exec i s = .next t) : t.Inv := by
  rcases exec_cases i s with ⟨hok, e⟩ | ⟨-, e⟩ <;> rw [e] at he <;> cases he
  · have hst : (Machine.effectOf i s).status = s.status := by cases i <;> rfl
    exact (h.effectOf hok).complete (by rwa [hst]) _
  · exact h.complete ha _

theorem State.Inv.step {t : State} (hs : step s = .next t) : t.Inv := by
  rcases step_cases s with ⟨⟨-, ha, -⟩, i, -, e⟩ | ⟨⟨-, ha, -⟩, -, e⟩ | ⟨hp, -, e⟩ | ⟨ev, rest, -, e⟩ | ⟨-, -, e⟩ <;>
    rw [e] at hs
  · exact h.exec ha hs
  · cases hs
    rw [State.runIllegal_eq_complete]
    exact h.complete ha _
  · cases hs; exact h.selfTest hp
  · have hrest : { s with inputs := rest }.Inv := { h with }
    exact hrest.event hs
  · cases hs; exact h

end

/-- Settles O59: each operation a step can be keeps the invariant. -/
theorem stepKeepsInvariant : Obligations.StepKeepsInvariant := fun _ _ h hs => h.step hs

/-- Settles O58: a reset erases the context and the hidden stores and leaves DMEM without contents. -/
theorem resetMeetsInvariant : Obligations.ResetMeetsInvariant := fun _ hcfg => State.inv_ofReset hcfg rfl rfl _ _ _ _

end Sys2Proof.Machine
end

section
/-! SUPPORT. The registers as the host reads and writes them, the ARG registers, the counter invariant of `UPD`, and the reset state. -/

namespace Sys2Proof.Machine

/-! ## Acceptance and register writes (R31 to R34) -/

/-- A write to CTRL with SRST = 0 writes IE alone, busy or not (R31). -/
theorem State.writeCtrl_of_not_srst (s : State) {v : Word} (h : v.getLsbD 1 = false) :
    s.writeCtrl v = { s with ie := v.getLsbD 0 } := by
  simp only [State.writeCtrl, h, Bool.false_eq_true, if_false]

/-- STATUS after a host write, each of the two bits told by its own case (R32). -/
theorem Status.acknowledge_eq (st : Status) (v : Word) :
    st.acknowledge v =
      { st with done := if v.getLsbD 1 then false else st.done, ovr := if v.getLsbD 3 then false else st.ovr } := by
  unfold Status.acknowledge
  cases v.getLsbD 1 <;> cases v.getLsbD 3 <;> simp

/-- Settles O8: the write to CMD is its acceptance, and the accepted engine completes the word it latched. -/
theorem acceptedCommandRunsNext : Obligations.AcceptedCommandRunsNext := by
  intro s i rest early hwf hidle havail hrest hin
  have hhost : s.HostTurn (.access (.write 0x00C .w32 (encode i))) rest := ⟨early, hin, fun hb => by simp [hidle] at hb⟩
  refine ⟨({ s with inputs := rest } : State).acceptCommand (encode i), ?_, rfl, ?_⟩
  · rw [step_writeReg (r := .cmd) hhost rfl]
    simp [State.writeReg, hidle]
  · have hc : (({ s with inputs := rest } : State).acceptCommand (encode i)).Completing := ⟨rfl, havail, hrest⟩
    rw [step_completing hc, State.acceptCommand_pcmd, decodeWord_encode hwf]

/-- The offset of ARGi fits the 16 bits of an aperture offset. -/
theorem toNat_argOffset (i : Fin 5) : (BitVec.ofNat 16 (0x010 + 4 * i.val)).toNat = (Reg.arg i).offset := by
  have := i.isLt
  simp only [BitVec.toNat_ofNat, Reg.offset]
  omega

/-- Settles O49: the register's own write, with BUSY = 0. -/
theorem idleRegisterWritesTakeEffect : Obligations.IdleRegisterWritesTakeEffect := by
  intro s rest v hidle
  refine ⟨fun hhost => ?_, fun i hhost => ?_⟩
  · rw [step_writeReg (r := .cmd) hhost rfl]
    simp [State.writeReg, hidle, State.acceptCommand, Status.accepted]
  · rw [step_writeReg (r := .arg i) hhost (toNat_argOffset i)]
    simp [State.writeReg, hidle]

/-- Settles O52: neither register's write looks at BUSY, unless SRST is set. -/
theorem statusAndControlWrites : Obligations.StatusAndControlWrites := by
  intro s rest v
  refine ⟨fun hhost => ?_, fun hhost hsrst => ?_⟩
  · rw [step_writeReg (r := .status) hhost rfl]
    simp only [State.writeReg, State.acknowledge, Status.acknowledge_eq]
  · rw [step_writeReg (r := .ctrl) hhost rfl]
    simp only [State.writeReg, State.writeCtrl_of_not_srst _ hsrst]

/-! ## The ARG registers (R34) -/

/-- A register write that changes the ARG registers is an idle one to an ARG register, or a soft reset. -/
theorem State.writeReg_args_ne {s : State} {r : Reg} {v : Word} (h : (s.writeReg r v).args ≠ s.args) :
    s.status.busy = false ∧ ((∃ i, r = .arg i) ∨ (r = .ctrl ∧ v.getLsbD 1 = true)) := by
  cases r with
  | arg i =>
    cases hb : s.status.busy
    · exact ⟨rfl, .inl ⟨i, rfl⟩⟩
    · simp [State.writeReg, hb] at h
  | ctrl =>
    cases hsrst : v.getLsbD 1
    · rw [State.writeReg, State.writeCtrl_of_not_srst s hsrst] at h
      exact absurd rfl h
    · cases hb : s.status.busy
      · exact ⟨rfl, .inr ⟨rfl, rfl⟩⟩
      · simp only [State.writeReg, State.writeCtrl, hsrst, hb, if_true] at h
        exact absurd rfl h
  | cmd =>
    simp only [State.writeReg] at h
    exact absurd (by split <;> rfl) h
  | status | id | h _ | t0 | t1 | f0 | f1 | buflen | buf _ => exact absurd rfl h

/-- The offsets of the ARG registers (R34). -/
theorem argOffset_mem (i : Fin 5) : 0x010 ≤ (Reg.arg i).offset ∧ (Reg.arg i).offset < 0x024 := by
  have := i.isLt
  simp only [Reg.offset]
  omega

/-- An event that changes the ARG registers is a hardware reset, an idle 32-bit write to one of them, or a soft reset. -/
theorem State.event_args_ne {s t : State} {e : Event} (he : s.event e = .next t) (h : t.args ≠ s.args) :
    e = .hardwareReset ∨
      (s.status.busy = false ∧ ∃ off v, e = .access (.write off .w32 v) ∧
        ((0x010 ≤ off.toNat ∧ off.toNat < 0x024) ∨ (off.toNat = 0x004 ∧ v.getLsbD 1 = true))) := by
  rcases State.event_cases he with ⟨rfl, -⟩ | ⟨off, w, -, rfl⟩ | ⟨off, w, v, rfl, ha, rfl⟩
  · exact .inl rfl
  · exact absurd rfl h
  · rcases busWrite_cases s off.toNat w v ha with ⟨r, hr, rfl, -, e⟩ | ⟨-, -, e⟩ | e <;> rw [e] at h
    · obtain ⟨hidle, hreg⟩ := State.writeReg_args_ne h
      refine .inr ⟨hidle, off, v, rfl, ?_⟩
      rcases hreg with ⟨i, rfl⟩ | ⟨rfl, hsrst⟩
      · exact .inl (hr ▸ argOffset_mem i)
      · exact .inr ⟨hr, hsrst⟩
    · exact absurd (by split <;> rfl) h
    · exact absurd rfl h

/-- Settles O30: no command, self-test or idle step writes the ARG registers, so the step was an event of the host. -/
theorem argRegistersChangeOnlyByHost : Obligations.ArgRegistersChangeOnlyByHost := by
  intro s t hs hne
  rcases step_cases s with ⟨-, i, -, e⟩ | ⟨-, -, e⟩ | ⟨-, -, e⟩ | ⟨ev, rest, hhost, e⟩ | ⟨-, -, e⟩ <;> rw [e] at hs
  · obtain ⟨-, hargs, -⟩ := exec_keeps hs
    exact absurd hargs hne
  · cases hs
    rw [State.runIllegal_eq_complete] at hne
    exact absurd rfl hne
  · cases hs; exact absurd rfl hne
  · exact ⟨ev, rest, hhost, State.event_args_ne (s := { s with inputs := rest }) hs hne⟩
  · cases hs; exact absurd rfl hne

/-! ## The counter and the buffer (R27, R171) -/

/-- Settles O34, by induction on `UPD` one block at a time: filling the buffer and compressing it moves 64 bytes to the counter. -/
theorem counterPlusBufferCountsBytes : Obligations.CounterPlusBufferCountsBytes := by
  intro c d hc
  induction c, d using upd_induct with
  | fits c d hfit => rw [upd_fits hfit, keep_t, keep_buflen]
  | exceeds c d hover ih =>
    have hbytes : 64 + (d.length - (64 - c.buflen)) = c.buflen + d.length := by omega
    rw [upd_over hover, ih (by simp), flush_t, flush_buflen, addBytes, List.length_drop, Nat.zero_add, BitVec.add_assoc,
      ← BitVec.ofNat_add, hbytes]

/-! ## STATUS (R32, R230) -/

/-- A register bit is set at its own position alone. -/
theorem getLsbD_bitAt (b : Bool) (pos k : Nat) : (bitAt b pos).getLsbD k = (decide (k < 32) && decide (k = pos) && b) := by
  simp only [bitAt, BitVec.getLsbD_shiftLeft, BitVec.getLsbD_setWidth, BitVec.getLsbD_ofBool]
  rcases Nat.lt_trichotomy k pos with h | rfl | h
  · simp [h, h.ne]
  · simp
  · simp [h.ne', Nat.sub_ne_zero_of_lt h]

/-- Which bit of STATUS is which (R32). -/
theorem State.getLsbD_statusWord (s : State) (k : Nat) :
    s.statusWord.getLsbD k = (decide (k < 32) &&
      (decide (k = 0) && s.status.busy || decide (k = 1) && s.status.done || decide (k = 2) && s.status.errcode != .ok ||
        decide (k = 3) && s.status.ovr || decide (k = 4) && s.status.ready || decide (k = 5) && s.status.stfail ||
        decide (k = 6) && s.ctx.valid || decide (k = 7) && s.ctx.lastNode ||
        !decide (k < 8) && s.status.errcode.code.getLsbD (k - 8))) := by
  have hcode : (s.status.errcode.code.setWidth 32 <<< 8).getLsbD k =
      (decide (k < 32) && (!decide (k < 8) && s.status.errcode.code.getLsbD (k - 8))) := by
    by_cases hk : k < 32 <;> simp [hk]
  simp only [State.statusWord, BitVec.getLsbD_or, getLsbD_bitAt, hcode, Bool.and_assoc, Bool.and_or_distrib_left]

/-- From bit 8 up STATUS holds the error code alone. -/
theorem State.getLsbD_statusWord_add_eight (s : State) {k : Nat} (hk : k < 24) :
    s.statusWord.getLsbD (8 + k) = s.status.errcode.code.getLsbD k := by
  have hlt : 8 + k < 32 := by omega
  have hne : ∀ n < 8, 8 + k ≠ n := by omega
  rw [State.getLsbD_statusWord]
  simp [hlt, hne]

/-- Settles O44: the low bits are read off their positions, and bits 31:8 are the code, whose 8 bits end at bit 15. -/
theorem statusWordLayout : Obligations.StatusWordLayout := by
  intro s
  have hcode : s.status.errcode.code.toNat ≤ 6 := by cases s.status.errcode <;> decide
  refine ⟨?busy, ?done, ?err, ?ovr, ?ready, ?stfail, ?ctxv, ?lastNode, ?errcode, ?reserved, hcode, rfl, rfl, rfl, rfl, rfl,
    rfl, rfl⟩
  case errcode =>
    refine BitVec.eq_of_getLsbD_eq fun i hi => ?_
    rw [BitVec.getLsbD_extractLsb', s.getLsbD_statusWord_add_eight (by omega), decide_eq_true hi, Bool.true_and]
  case reserved =>
    refine BitVec.eq_of_getLsbD_eq fun i hi => ?_
    rw [BitVec.getLsbD_extractLsb', show 16 + i = 8 + (8 + i) by omega, s.getLsbD_statusWord_add_eight (by omega),
      BitVec.getLsbD_of_ge _ _ (by omega), Bool.and_false]
    exact BitVec.getLsbD_zero.symm
  all_goals
    rw [State.getLsbD_statusWord]
    simp

/-! ## Register reads (R30 to R35, R65, R272) -/

/-- Past the ARG registers a read returns a word of the state view (R35, R272). -/
theorem registerValue_view (s : State) {off : Nat} (h : 0x024 ≤ off) :
    registerValue s off = s.view
      (if 0x040 ≤ off ∧ off < 0x060 then s.ctx.h.toList.getD ((off - 0x040) / 4) 0
       else if off = 0x060 then s.ctx.t.extractLsb' 0 32
       else if off = 0x064 then s.ctx.t.extractLsb' 32 32
       else if off = 0x068 then s.ctx.f0
       else if off = 0x06C then s.ctx.f1
       else if off = 0x070 then BitVec.ofNat 32 s.ctx.buflen
       else if 0x080 ≤ off ∧ off < 0x0C0 then le32 s.ctx.buf.toList (off - 0x080)
       else 0) := by
  rw [registerValue, if_neg (by omega), if_neg (by omega), if_neg (by omega), if_neg (by omega)]
  rfl

/-- At a register's offset a read returns the register. -/
theorem registerValue_offset (s : State) (r : Reg) : registerValue s r.offset = s.readReg r := by
  cases r with
  | arg i =>
    have hi : (0x010 + 4 * i.val - 0x010) / 4 = i.val := by omega
    rw [registerValue, Reg.offset, if_neg (by omega), if_neg (by omega), if_neg (by omega), if_pos (by omega), hi]
    simp [State.readReg, State.arg]
  | h i =>
    have hi : (0x040 + 4 * i.val - 0x040) / 4 = i.val := by omega
    have hlo : 0x024 ≤ 0x040 + 4 * i.val := by omega
    rw [Reg.offset, registerValue_view s hlo, if_pos (by omega), hi]
    simp [State.readReg]
  | buf j =>
    have hj : 0x080 + 4 * j.val - 0x080 = 4 * j.val := by omega
    have hlo : 0x024 ≤ 0x080 + 4 * j.val := by omega
    rw [Reg.offset, registerValue_view s hlo, if_neg (by omega), if_neg (by omega), if_neg (by omega), if_neg (by omega),
      if_neg (by omega), if_neg (by omega), if_pos (by omega), hj, State.readReg]
  | ctrl => cases hie : s.ie <;> simp [registerValue, Reg.offset, State.readReg, State.ctrlWord, bitAt, hie]
  | id | status | cmd | t0 | t1 | f0 | f1 | buflen =>
    simp [registerValue, Reg.offset, State.readReg, State.view, idWord]

/-- At a multiple of 4 that is no register's offset a read returns 0 (R65). -/
theorem registerValue_reserved (s : State) {off : Nat} (ha : off % 4 = 0) (h : ∀ r : Reg, r.offset ≠ off) :
    registerValue s off = 0 := by
  have harg : ¬(0x010 ≤ off ∧ off < 0x024) := fun hr =>
    h (.arg ⟨(off - 0x010) / 4, by omega⟩) (by simp only [Reg.offset]; omega)
  have hh : ¬(0x040 ≤ off ∧ off < 0x060) := fun hr =>
    h (.h ⟨(off - 0x040) / 4, by omega⟩) (by simp only [Reg.offset]; omega)
  have hbuf : ¬(0x080 ≤ off ∧ off < 0x0C0) := fun hr =>
    h (.buf ⟨(off - 0x080) / 4, by omega⟩) (by simp only [Reg.offset]; omega)
  have hfixed : off ≠ 0x000 ∧ off ≠ 0x004 ∧ off ≠ 0x008 ∧ off ≠ 0x060 ∧ off ≠ 0x064 ∧ off ≠ 0x068 ∧ off ≠ 0x06C ∧
      off ≠ 0x070 :=
    ⟨(h .id).symm, (h .ctrl).symm, (h .status).symm, (h .t0).symm, (h .t1).symm, (h .f0).symm, (h .f1).symm, (h .buflen).symm⟩
  simp only [registerValue, hfixed, harg, hh, hbuf, if_false, ite_self]

/-- Settles O46: the offset is a register's, whose value is read, or no register's, where both sides are 0. -/
theorem registerReadReturnsItsValue : Obligations.RegisterReadReturnsItsValue := by
  intro s rest off hlo ha hhost
  have hval : ({ s with inputs := rest } : State).busRead off.toNat .w32 = registerValue s off.toNat := by
    simp only [State.busRead, regionOf_registers hlo]
    cases hr : regAt off.toNat with
    | none =>
      refine (registerValue_reserved s ha fun r h => ?_).symm
      simp [← h, regAt_offset] at hr
    | some r =>
      rw [← offset_of_regAt hr]
      exact (registerValue_offset s r).symm
  rw [step_read hhost (.inl ⟨rfl, ha⟩), hval]

/-! ## Reset (R40) -/

/-- Settles O57: every field is read off the reset state; STATUS is its two bits, one for each kind of build. -/
theorem resetValues : Obligations.ResetValues := by
  intro cfg
  have hstatus : (State.resetOf cfg).statusWord = if cfg.selftestPresent then 0x00000001 else 0x00000010 := by
    obtain ⟨size, selftest, accel⟩ := cfg
    cases selftest <;> simp [State.statusWord, State.resetOf, State.ofReset, Status.afterReset, bitAt, ErrCode.code]
  exact ⟨fun i => Vector.getElem_replicate i.isLt, rfl, rfl, rfl, fun i => Vector.getElem_replicate i.isLt, rfl, rfl, rfl,
    fun i => Vector.getElem_replicate i.isLt, rfl, rfl, rfl, rfl, rfl, fun _ => rfl, rfl, hstatus, fun _ _ => rfl⟩

end Sys2Proof.Machine
end

section
/-! SUPPORT. DMEM and its window: what the commands store and what they leave, and what the host's accesses read and write
(20_memory.md). -/

namespace Sys2Proof.Machine

/-! ## The range check (R62) -/

/-- The checks of UPDATE, with a context to update, come down to its range. -/
theorem checkAll_update {s : State} (hf : s.status.stfail = false) (hv : s.ctx.valid = true) :
    s.checkAll (checksOf .update s) = if badRange s.cfg.dmemSize (s.argNat 0, s.argNat 1) then .range else .ok := by
  simp only [checksOf, State.checkAll_avail hf, hv, firstFailing_cons, firstFailing_nil, if_true, ← validRange_false_iff]
  cases validRange s.cfg.dmemSize (s.argNat 0) (s.argNat 1) <;> rfl

/-- Settles O15: a completion with E_RANGE is no completion with E_OK, so the code tells whether the range was valid. -/
theorem rangeCheckDoesNotWrap : Obligations.RangeCheckDoesNotWrap := by
  intro s hf hv
  have hrange : badRange s.cfg.dmemSize (s.argNat 0, s.argNat 1) ↔
      s.args[1] ≠ 0 ∧ s.cfg.dmemSize < s.args[0].toNat + s.args[1].toNat :=
    and_congr_left' (BitVec.toNat_eq (y := 0)).not.symm
  have hcheck := checkAll_update hf hv
  rw [← hrange]
  rcases exec_cases .update s with ⟨hok, e⟩ | ⟨herr, e⟩ <;> rw [e]
  · refine ⟨fun hbad => ?_, fun h => ?_⟩
    · rw [hcheck, if_pos hbad] at hok
      cases hok
    · injection h with h
      exact absurd (congrArg (fun u : State => u.status.errcode) h) (by simp)
  · have hbad : badRange s.cfg.dmemSize (s.argNat 0, s.argNat 1) := by
      by_contra hgood
      exact herr (by rw [hcheck, if_neg hgood])
    rw [hcheck, if_pos hbad]
    exact ⟨fun _ => rfl, fun _ => hbad⟩

/-! ## What a command stores and what it leaves (R77) -/

/-- No command touches the host's side of the port or the model's own counts. -/
theorem exec_keeps_port {i : Instr} {s t : State} (h : exec i s = .next t) :
    t.epoch = s.epoch ∧ t.selfTests = s.selfTests ∧ t.inputs = s.inputs ∧ t.rdata = s.rdata := by
  rcases exec_cases i s with ⟨-, e⟩ | ⟨-, e⟩ <;> rw [e] at h <;> cases h
  · cases i <;> exact ⟨rfl, rfl, rfl, rfl⟩
  · exact ⟨rfl, rfl, rfl, rfl⟩

/-- The command stores its output, and this is where: `n` bytes from `base` (R190, R214). -/
abbrev State.Stores (s : State) (i : Instr) (base n : Nat) : Prop :=
  (i = .final n ∧ base = (s.arg 0).toNat) ∨ (i = .hmac n ∧ base = (s.arg 4).toNat)

/-- A command leaves DMEM as it is, or it stores a string of at most its output length at its output address. -/
theorem exec_mem_cases {i : Instr} {s t : State} (h : exec i s = .next t) :
    t.mem = s.mem ∨ ∃ base n out, s.Stores i base n ∧ out.length ≤ n ∧ t.mem = (s.memWrite base out).mem := by
  rcases exec_cases i s with ⟨-, e⟩ | ⟨-, e⟩ <;> rw [e] at h <;> cases h
  · cases i with
    | final n => exact .inr ⟨_, n, (fin s.ctx n).2, .inl ⟨rfl, rfl⟩, by rw [length_fin]; omega, rfl⟩
    | hmac n => exact .inr ⟨_, n, _, .inr ⟨rfl, rfl⟩, List.length_take_le _ _, rfl⟩
    | init _ | initKey _ _ | initParam | update | setln _ => exact .inl rfl
  · exact .inl rfl

/-- A store changes no byte outside its range. -/
theorem State.memWrite_dmemByte_ne {s : State} {base a : Nat} {out : List Byte}
    (h : (s.memWrite base out).dmemByte a ≠ s.dmemByte a) : base ≤ a ∧ a < base + out.length := by
  rw [State.dmemByte_memWrite] at h
  exact (ite_ne_right_iff.1 h).1

/-- A DMEM byte that a command changes lies in the command's output range. -/
theorem exec_dmemByte_ne {i : Instr} {s t : State} {a : Nat} (h : exec i s = .next t) (hne : t.dmemByte a ≠ s.dmemByte a) :
    ∃ base n, s.Stores i base n ∧ base ≤ a ∧ a < base + n := by
  obtain ⟨hepoch, -⟩ := exec_keeps_port h
  rcases exec_mem_cases h with hm | ⟨base, n, out, hst, hlen, hm⟩
  · exact absurd (State.dmemByte_congr hm hepoch a) hne
  · rw [State.dmemByte_congr hm (hepoch.trans (s.memWrite_epoch base out).symm)] at hne
    obtain ⟨hlo, hhi⟩ := State.memWrite_dmemByte_ne hne
    exact ⟨base, n, hst, hlo, by omega⟩

/-- INIT_KEY and UPDATE erase stores of their own, and only HMAC writes its three. -/
theorem exec_keeps_hmac_stores {i : Instr} {s t : State} (h : exec i s = .next t) (hi : ∀ n, i ≠ .hmac n) :
    t.hidden.p = s.hidden.p ∧ t.hidden.keyBlock = s.hidden.keyBlock ∧ t.hidden.innerDigest = s.hidden.innerDigest := by
  rcases exec_cases i s with ⟨-, e⟩ | ⟨-, e⟩ <;> rw [e] at h <;> cases h
  · cases i with
    | hmac n => exact absurd rfl (hi n)
    | update =>
      rw [State.complete_hidden, effectOf]
      dsimp only
      split <;> exact ⟨rfl, rfl, rfl⟩
    | init _ | initKey _ _ | initParam | final _ | setln _ => exact ⟨rfl, rfl, rfl⟩
  · exact ⟨rfl, rfl, rfl⟩

/-- UPDATE keeps the flag words, the last-node flag and the validity (R171). -/
theorem execUpdate_keeps {s t : State} (h : exec .update s = .next t) :
    t.ctx.f0 = s.ctx.f0 ∧ t.ctx.f1 = s.ctx.f1 ∧ t.ctx.lastNode = s.ctx.lastNode ∧ t.ctx.valid = s.ctx.valid := by
  rcases exec_cases .update s with ⟨-, e⟩ | ⟨-, e⟩ <;> rw [e] at h <;> cases h
  · exact upd_rest s.ctx _
  · exact ⟨rfl, rfl, rfl, rfl⟩

/-- SETLN keeps all but the last-node flag of the context, and every hidden store (R196). -/
theorem execSetln_keeps {b : Bool} {s t : State} (h : exec (.setln b) s = .next t) :
    t.ctx = { s.ctx with lastNode := t.ctx.lastNode } ∧ t.hidden = s.hidden := by
  rcases exec_cases (.setln b) s with ⟨-, e⟩ | ⟨-, e⟩ <;> rw [e] at h <;> cases h <;> exact ⟨rfl, rfl⟩

/-- Settles O27: none of the five commands is FINAL or HMAC, which alone store. -/
theorem nonStoringCommandsFrame : Obligations.NonStoringCommandsFrame := by
  intro i s t hi h
  have hstores : ∀ base n, ¬s.Stores i base n := by
    rcases hi with ⟨n, rfl⟩ | ⟨n, k, rfl⟩ | rfl | rfl | ⟨b, rfl⟩ <;> simp [State.Stores]
  have hhmac : ∀ n, i ≠ .hmac n := fun n hn => hstores _ n (.inr ⟨hn, rfl⟩)
  obtain ⟨hcfg, hargs, hie, hpcmd, hready, hstfail, hovr⟩ := exec_keeps h
  obtain ⟨hepoch, htests, hinputs, hrdata⟩ := exec_keeps_port h
  obtain ⟨hp, hkey, hinner⟩ := exec_keeps_hmac_stores h hhmac
  have hmem : t.mem = s.mem := (exec_mem_cases h).resolve_right fun ⟨base, n, _, hst, _⟩ => hstores base n hst
  refine ⟨hcfg, hargs, hie, hpcmd, hmem, State.dmemByte_congr hmem hepoch, hepoch, htests, hinputs, hrdata, hovr, hready,
    hstfail, hp, hkey, hinner, ?_, ?_⟩
  · rintro rfl
    exact execUpdate_keeps h
  · rintro b rfl
    exact execSetln_keeps h

/-- FINAL and HMAC leave the key block store of INIT_KEY. -/
theorem exec_keeps_initKeyBlock {i : Instr} {s t : State} {base n : Nat} (hi : s.Stores i base n) (h : exec i s = .next t) :
    t.hidden.initKeyBlock = s.hidden.initKeyBlock := by
  rcases exec_cases i s with ⟨-, e⟩ | ⟨-, e⟩ <;> rw [e] at h <;> cases h
  · rcases hi with ⟨rfl, -⟩ | ⟨rfl, -⟩ <;> rfl
  · rfl

/-- HMAC leaves the streaming context (R217). -/
theorem execHmac_ctx {n : Nat} {s t : State} (h : exec (.hmac n) s = .next t) : t.ctx = s.ctx := by
  rcases exec_cases (.hmac n) s with ⟨-, e⟩ | ⟨-, e⟩ <;> rw [e] at h <;> cases h <;> rfl

/-- A command has at most one output range. -/
theorem State.Stores.unique {s : State} {i : Instr} {base base' n n' : Nat} (h : s.Stores i base n)
    (h' : s.Stores i base' n') : base = base' ∧ n = n' := by
  rcases h with ⟨rfl, rfl⟩ | ⟨rfl, rfl⟩ <;> simpa [State.Stores, eq_comm, and_comm] using h'

/-- Settles O28: a changed byte would lie in the command's one output range. -/
theorem storingCommandsFrame : Obligations.StoringCommandsFrame := by
  intro n i s t base hi h
  obtain ⟨hcfg, hargs, hie, hpcmd, hready, hstfail, hovr⟩ := exec_keeps h
  obtain ⟨hepoch, htests, hinputs, hrdata⟩ := exec_keeps_port h
  refine ⟨fun a ha => ?_, hcfg, hargs, hie, hpcmd, hepoch, htests, hinputs, hrdata, hovr, hready, hstfail,
    exec_keeps_initKeyBlock hi h, ?_⟩
  · by_contra hne
    obtain ⟨base', n', hi', hlo, hhi⟩ := exec_dmemByte_ne h hne
    obtain ⟨rfl, rfl⟩ := State.Stores.unique hi hi'
    omega
  · rintro rfl
    exact execHmac_ctx h

/-- An event that changes a DMEM byte is a hardware reset or an idle write of bytes that hold it. -/
theorem State.event_dmemByte_ne {s t : State} {e : Event} {a : Nat} (he : s.event e = .next t)
    (hne : t.dmemByte a ≠ s.dmemByte a) :
    e = .hardwareReset ∨
      ∃ off w v, e = .access (.write off w v) ∧ s.status.busy = false ∧ off.toNat ≤ 0x1000 + a ∧
        0x1000 + a < off.toNat + w.bytes := by
  rcases State.event_cases he with ⟨rfl, -⟩ | ⟨off, w, -, rfl⟩ | ⟨off, w, v, rfl, ha, rfl⟩
  · exact .inl rfl
  · exact absurd rfl hne
  · rcases busWrite_cases s off.toNat w v ha with ⟨r, -, -, -, e⟩ | ⟨hlo, -, e⟩ | e <;> rw [e] at hne
    · exact absurd (writeReg_dmemByte s r v a) hne
    · split at hne
      · exact absurd rfl hne
      next hidle =>
        obtain ⟨hfrom, hto⟩ := State.memWrite_dmemByte_ne hne
        have hlen : ((bytesOfWord v).take w.bytes).length ≤ w.bytes := List.length_take_le _ _
        exact .inr ⟨off, w, v, rfl, by simpa using hidle, by omega, by omega⟩
    · exact absurd rfl hne

/-- Settles O29: of the five things a step can be, only a command's completion and an event of the host change a byte. -/
theorem dmemChangesOnlyWhereStored : Obligations.DmemChangesOnlyWhereStored := by
  intro s t a hs hne
  rcases step_cases s with ⟨hc, i, hd, e⟩ | ⟨-, -, e⟩ | ⟨-, -, e⟩ | ⟨ev, rest, hhost, e⟩ | ⟨-, -, e⟩ <;> rw [e] at hs
  · obtain ⟨base, n, hst, hlo, hhi⟩ := exec_dmemByte_ne hs hne
    refine .inl ⟨hc, n, ?_⟩
    rcases hst with ⟨rfl, rfl⟩ | ⟨rfl, rfl⟩
    · exact .inl ⟨hd, hlo, hhi⟩
    · exact .inr ⟨hd, hlo, hhi⟩
  · cases hs
    rw [State.runIllegal_eq_complete] at hne
    exact absurd rfl hne
  · cases hs; exact absurd rfl hne
  · rcases State.event_dmemByte_ne (s := { s with inputs := rest }) hs hne with rfl | ⟨off, w, v, rfl, hidle, hlo, hhi⟩
    · exact .inr (.inr ⟨rest, hhost⟩)
    · exact .inr (.inl ⟨off, w, v, rest, hhost, hidle, hlo, hhi⟩)
  · cases hs; exact absurd rfl hne

/-! ## Accepted and unaccepted accesses (R66, R67) -/

/-- Settles O45: the port tests R66 first, and what it accepts has an effect in every state. -/
theorem busErrorExactlyOnUnacceptedAccess : Obligations.BusErrorExactlyOnUnacceptedAccess := by
  intro s rest off w v a hcase hhost
  refine ⟨fun hbad => ?_, fun hgood => ?_⟩
  · rw [← acceptsAccess_iff] at hbad
    rw [step_host hhost]
    rcases hcase with rfl | rfl <;> exact if_neg hbad
  · rcases hcase with rfl | rfl
    · exact ⟨_, step_read hhost hgood⟩
    · exact ⟨_, step_write hhost hgood⟩

/-! ## Reads of the window (R65, R68, R272) -/

/-- Byte `k` of a DMEM read, zero past its end. -/
theorem State.byteAt_memRead_ite (s : State) (a n k : Nat) :
    byteAt (s.memRead a n) k = if k < n then s.dmemByte (a + k) else 0 := by
  split
  next hk => exact s.byteAt_memRead a n k hk
  next hk => simp [byteAt, Nat.not_lt.1 hk]

/-- Settles O47: an idle read inside DMEM is the word of its bytes, and every other one is 0. -/
theorem windowReadIsLittleEndian : Obligations.WindowReadIsLittleEndian := by
  intro s rest off w hlo ha hhost a byte
  have hdata : ({ s with inputs := rest } : State).busRead off.toNat w = byte 3 ++ byte 2 ++ byte 1 ++ byte 0 := by
    by_cases hin : off.toNat < 0x1000 + s.cfg.dmemSize
    · have hsize : a < s.cfg.dmemSize := by omega
      simp only [State.busRead, regionOf_dmem hlo hin]
      cases hb : s.status.busy
      · have hbyte : ∀ k, byte k = byteAt (s.memRead a w.bytes) k := fun k => by
          simp only [byte, hb, hsize, true_and, State.byteAt_memRead_ite]
        rw [hbyte, hbyte, hbyte, hbyte, State.memRead_congr (s := { s with inputs := rest }) (t := s) rfl rfl]
        rfl
      · simp [byte, hb]
    · have hsize : ¬a < s.cfg.dmemSize := by omega
      simp only [State.busRead, regionOf_unmapped (Nat.le_of_not_lt hin)]
      simp [byte, hsize]
  rw [step_read hhost ha, hdata]

/-! ## Writes to the window (R68, R69) -/

/-- Byte `k` of a word is its bits from `8 * k` up (R11, R68). -/
theorem byteAt_bytesOfWord (v : Word) {k : Nat} (h : k < 4) : byteAt (bytesOfWord v) k = v.extractLsb' (8 * k) 8 := by
  interval_cases k <;> rfl

/-- The bytes a write of a width moves: the low ones of the value (R68). -/
theorem byteAt_take_bytesOfWord (v : Word) {n k : Nat} (hk : k < n) (hn : n ≤ 4) :
    byteAt ((bytesOfWord v).take n) k = v.extractLsb' (8 * k) 8 := by
  rw [← byteAt_bytesOfWord v (by omega), byteAt, byteAt, List.getD_eq_getElem?_getD, List.getElem?_take_of_lt hk,
    List.getD_eq_getElem?_getD]

/-- An accepted access moves at most 4 bytes (R66). -/
theorem bytes_le_of_accepted {off : Nat} {w : Width} (h : accepted off w) : w.bytes ≤ 4 := by
  rcases h with ⟨rfl, -⟩ | ⟨-, rfl | ⟨rfl, -⟩⟩ <;> decide

/-- Settles O48: the write is one store of the value's low bytes at the DMEM address of its offset. -/
theorem windowWriteIsLittleEndian : Obligations.WindowWriteIsLittleEndian := by
  intro s rest off w v hlo hhi ha hidle hhost
  have hw := bytes_le_of_accepted ha
  have hlen : ((bytesOfWord v).take w.bytes).length = w.bytes := by
    rw [List.length_take]; exact Nat.min_eq_left hw
  refine ⟨({ s with inputs := rest } : State).memWrite (off.toNat - 0x1000) ((bytesOfWord v).take w.bytes), ?_, rfl,
    fun a => ?_⟩
  · rw [step_write hhost ha]
    simp [State.busWrite, regionOf_dmem hlo hhi, hidle]
  · rw [State.dmemByte_memWrite, hlen]
    by_cases hin : off.toNat ≤ 0x1000 + a ∧ 0x1000 + a < off.toNat + w.bytes
    · have hk : a - (off.toNat - 0x1000) = 0x1000 + a - off.toNat := by omega
      rw [if_pos hin, if_pos (by omega), hk, byteAt_take_bytesOfWord v (by omega) hw]
    · rw [if_neg hin, if_neg (by omega)]
      rfl

/-! ## Ignored writes (R30, R35, R65) -/

/-- A register at an ignored offset is ID or in the state view, which no write changes. -/
theorem State.writeReg_ignored (s : State) {r : Reg} (v : Word) (h : ignoresWrites r.offset) : s.writeReg r v = s := by
  cases r with
  | ctrl | status | cmd => simp [ignoresWrites, Reg.offset] at h
  | arg i =>
    simp only [ignoresWrites, Reg.offset] at h
    omega
  | id | h _ | t0 | t1 | f0 | f1 | buflen | buf _ => rfl

/-- A write to an ignored offset of the register region has no effect, whether a register stands there or none. -/
theorem State.busWrite_ignored (s : State) {off : Nat} (w : Width) (v : Word) (h : ignoresWrites off) :
    s.busWrite off w v = s := by
  have hlo : off < 0x1000 := by rcases h with rfl | ⟨-, h⟩ <;> omega
  simp only [State.busWrite, regionOf_registers hlo]
  cases hr : regAt off with
  | none => rfl
  | some r => exact s.writeReg_ignored v (offset_of_regAt hr ▸ h)

/-- Settles O51: an ignored offset has no register that takes writes, and past DMEM there is nothing to write. -/
theorem ignoredWritesChangeNothing : Obligations.IgnoredWritesChangeNothing := by
  intro s rest off w v ha hoff hhost
  rw [step_write hhost ha]
  rcases hoff with hreg | hpast
  · rw [State.busWrite_ignored _ w v hreg]
  · simp only [State.busWrite, regionOf_unmapped hpast]

end Sys2Proof.Machine
end

section
/-! PROOFS. The encoding: every legal word is the encoding of its command, a word decodes to a row's command exactly when the row's
mask and match select it, the words of the assembler, and the step that runs a decoded word. -/

namespace Sys2Proof

/-! ## Layouts and fields (R90, R91) -/

/-- The four bytes of a word say which layout it is. -/
theorem layoutK_eq_of_bytes {w : Word} {k l o : Byte} (h0 : opcOf w = o) (h1 : w.extractLsb' 8 8 = l)
    (h2 : w.extractLsb' 16 8 = k) (h3 : w.extractLsb' 24 8 = 0) : layoutK k l o = w :=
  word_ext ((opcOf_layoutK k l o).trans h0.symm) (by rw [extractLsb'_8_layoutK, h1]) (by rw [extractLsb'_16_layoutK, h2])
    (by rw [extractLsb'_24_layoutK, h3])

/-- The layout of formats N, O and K by shifts, as the assembler forms it (R97). -/
theorem layoutK_eq_shifts (k l o : Byte) :
    layoutK k l o = o.setWidth 32 ||| l.setWidth 32 <<< 8 ||| k.setWidth 32 <<< 16 := by
  rw [← BitVec.setWidth_eq (layoutK k l o), layoutK, BitVec.setWidth_append_append_append_eq_shiftLeft_setWidth_or,
    BitVec.or_comm, BitVec.or_comm _ (l.setWidth 32 <<< 8), ← BitVec.or_assoc]
  simp

/-- The field written for OUTLEN as it is read is byte 1 (R91). -/
@[simp] theorem lengthField_outlenOf (w : Word) : lengthField (outlenOf w) = w.extractLsb' 8 8 := by
  rw [lengthField, outlenOf, BitVec.ofNat_toNat, BitVec.setWidth_eq]

/-- The field written for KEYLEN as it is read is byte 2 (R91). -/
@[simp] theorem lengthField_keylenOf (w : Word) : lengthField (keylenOf w) = w.extractLsb' 16 8 := by
  rw [lengthField, keylenOf, BitVec.ofNat_toNat, BitVec.setWidth_eq]

theorem fieldFits_outlenOf (w : Word) : fieldFits (outlenOf w) := BitVec.isLt _

theorem fieldFits_keylenOf (w : Word) : fieldFits (keylenOf w) := BitVec.isLt _

/-- Under the reserved bits of format S byte 2 holds nothing but LN (R90). -/
theorem byte2_eq_of_lnOf {w : Word} {b : Bool} (hb : lnOf w = b) (hr : w.extractLsb' 16 8 &&& 0xFE = 0) :
    w.extractLsb' 16 8 = if b then 1 else 0 := by
  have bit : ∀ v : Byte, v &&& 0xFE = 0 → v = if v.getLsbD 0 then 1 else 0 := by decide
  have hln : (w.extractLsb' 16 8).getLsbD 0 = b := by rw [← hb, lnOf, BitVec.getLsbD_extractLsb']; rfl
  rw [← hln]
  exact bit _ hr

/-! ## A word that spells a command is its encoding (R90, R94, R95) -/

/-- A word that spells a command is its encoding, and the command is well-formed: its lengths were read from 8-bit fields. -/
theorem wf_and_encode_of_spells {w : Word} {i : Instr} (h : Spells w i) : i.wf = true ∧ encode i = w := by
  cases i with
  | init n | final n | hmac n =>
    obtain ⟨hopc, rfl, h2, h3⟩ := h
    exact ⟨decide_eq_true (fieldFits_outlenOf w), layoutK_eq_of_bytes hopc (lengthField_outlenOf w).symm h2 h3⟩
  | initKey n k =>
    obtain ⟨hopc, rfl, rfl, h3⟩ := h
    exact ⟨by simp [Instr.wf, fieldFits_outlenOf, fieldFits_keylenOf],
      layoutK_eq_of_bytes hopc (lengthField_outlenOf w).symm (lengthField_keylenOf w).symm h3⟩
  | initParam | update =>
    obtain ⟨hopc, h1, h2, h3⟩ := h
    exact ⟨rfl, layoutK_eq_of_bytes hopc h1 h2 h3⟩
  | setln b =>
    obtain ⟨hopc, hln, h1, h2, h3⟩ := h
    exact ⟨rfl, (layoutS_eq_layoutK b _).trans (layoutK_eq_of_bytes hopc h1 (byte2_eq_of_lnOf hln h2) h3)⟩

/-- Settles O1: the encoding of a well-formed command spells it, and a word decodes to what it spells. -/
theorem decodeReadsBackEncode : Obligations.DecodeReadsBackEncode := fun _ h => decodeWord_encode h

/-- Settles O2: a word that decodes to a command spells it, so it is its encoding. -/
theorem legalWordIsItsCommandsEncoding : Obligations.LegalWordIsItsCommandsEncoding :=
  fun w i h => wf_and_encode_of_spells ((decodeWord_ok_iff w i).1 h)

/-! ## The rows of the opcode map (R92, R94) -/

/-- No two rows have one opcode: the search for a row's opcode finds that row. -/
theorem find_row_of_mem : ∀ r ∈ opcodeTable, opcodeTable.find? (fun r' => r'.opc == r.opc) = some r := by decide

theorem row_eq_of_opc_eq {r r' : OpcodeRow} (hr : r ∈ opcodeTable) (hr' : r' ∈ opcodeTable) (h : r.opc = r'.opc) : r = r' := by
  have hf := find_row_of_mem r hr
  rw [h, find_row_of_mem r' hr'] at hf
  exact (Option.some.inj hf).symm

/-- No two rows have one mnemonic. -/
theorem row_eq_of_mnemonic_eq : ∀ r ∈ opcodeTable, ∀ r' ∈ opcodeTable, r.mnemonic = r'.mnemonic → r = r' := by decide

/-- Every row's reserved bits lie above the opcode byte, and its mask adds exactly that byte (R94). -/
theorem resvMask_bytes : ∀ r ∈ opcodeTable,
    r.resvMask.extractLsb' 24 8 ++ r.resvMask.extractLsb' 16 8 ++ r.resvMask.extractLsb' 8 8 ++ 0x00#8 = r.resvMask ∧
      r.resvMask.extractLsb' 24 8 ++ r.resvMask.extractLsb' 16 8 ++ r.resvMask.extractLsb' 8 8 ++ 0xFF#8 =
        r.resvMask ||| 0x000000FF := by decide

/-- The opcodes of the map are 0x01 to 0x07 (R92). -/
theorem exists_row_iff (o : Byte) : (∃ r ∈ opcodeTable, r.opc = o) ↔ o.toNat ≠ 0 ∧ o.toNat < 8 := by
  simp only [opcodeTable, List.mem_cons, List.not_mem_nil, or_false, exists_eq_or_imp, exists_eq_left, BitVec.toNat_eq,
    BitVec.reduceToNat]
  omega

/-- The opcode of a row makes a command of that row's mnemonic. -/
theorem commandOf_of_row {w : Word} {r : OpcodeRow} (hr : r ∈ opcodeTable) (ho : opcOf w = r.opc) :
    ∃ i, commandOf w = .ok i ∧ i.mnemonic = r.mnemonic := by
  simp only [opcodeTable, List.mem_cons, List.not_mem_nil, or_false] at hr
  rcases hr with rfl | rfl | rfl | rfl | rfl | rfl | rfl <;> exact ⟨_, by rw [commandOf, ho]; rfl, rfl⟩

/-- A word with the opcode of a row decodes to that row's command when the row's reserved bits are zero, and to none otherwise. -/
theorem decodeWord_of_opc {w : Word} {r : OpcodeRow} (hr : r ∈ opcodeTable) (ho : opcOf w = r.opc) :
    decodeWord w = if w &&& r.resvMask = 0 then commandOf w else .error (.reservedBits r.opc (w &&& r.resvMask)) :=
  decodeWord_of_row (by rw [ho]; exact find_row_of_mem r hr)

/-- The words that decode to a command of a row's mnemonic: its opcode, and its reserved bits zero. -/
theorem exists_decodeWord_mnemonic_iff (w : Word) {r : OpcodeRow} (hr : r ∈ opcodeTable) :
    (∃ i, decodeWord w = .ok i ∧ i.mnemonic = r.mnemonic) ↔ opcOf w = r.opc ∧ w &&& r.resvMask = 0 := by
  constructor
  · rintro ⟨i, hi, hm⟩
    cases hf : opcodeTable.find? (fun r => r.opc == opcOf w) with
    | none => simp [decodeWord, hf] at hi
    | some r' =>
      have hr' : r' ∈ opcodeTable := List.mem_of_find?_eq_some hf
      have ho : opcOf w = r'.opc := (beq_iff_eq.1 (List.find?_some hf :)).symm
      obtain ⟨i', hi', hm'⟩ := commandOf_of_row hr' ho
      rw [decodeWord_of_opc hr' ho, hi'] at hi
      split at hi
      · next hresv =>
        cases hi
        cases row_eq_of_mnemonic_eq r hr r' hr' (hm.symm.trans hm')
        exact ⟨ho, hresv⟩
      · cases hi
  · rintro ⟨ho, hresv⟩
    rw [decodeWord_of_opc hr ho, if_pos hresv]
    exact commandOf_of_row hr ho

/-- Mask and match select the opcode and the reserved bits apart: the match is the opcode byte below three zero bytes (R94). -/
theorem and_mask_eq_value_iff (w : Word) {r : OpcodeRow} (hr : r ∈ opcodeTable) :
    w &&& (r.resvMask ||| 0x000000FF) = r.opc.setWidth 32 ↔ opcOf w = r.opc ∧ w &&& r.resvMask = 0 := by
  obtain ⟨hresv, hmask⟩ := resvMask_bytes r hr
  have hvalue : r.opc.setWidth 32 = layoutK 0 0 r.opc := by rw [layoutK_eq_shifts]; simp
  have hall (b : Byte) : b &&& 0xFF#8 = b := BitVec.and_allOnes
  have hclear := and_mask_iff w 0#8 (r.resvMask.extractLsb' 8 8) (r.resvMask.extractLsb' 16 8) (r.resvMask.extractLsb' 24 8)
    0#8 0#8 0#8 0#8
  rw [hresv, show 0#8 ++ 0#8 ++ 0#8 ++ 0#8 = (0 : Word) from rfl] at hclear
  rw [← hmask, hvalue, layoutK, and_mask_iff, hall, hclear]
  simp [opcOf]

/-- Settles O3: both sides say that the word has the row's opcode and none of its reserved bits. -/
theorem wordSelectsItsOpcodeRow : Obligations.WordSelectsItsOpcodeRow := fun w _ hr =>
  (and_mask_eq_value_iff w hr).trans (exists_decodeWord_mnemonic_iff w hr).symm

/-- The mnemonic of every command is some row's. -/
theorem exists_row_mnemonic (i : Instr) : ∃ r ∈ opcodeTable, r.mnemonic = i.mnemonic := by
  cases i <;> simp [opcodeTable, Instr.mnemonic]

/-- The legal words: those with the opcode of a row and none of its reserved bits. -/
theorem exists_decodeWord_iff (w : Word) :
    (∃ i, decodeWord w = .ok i) ↔ ∃ r ∈ opcodeTable, r.opc = opcOf w ∧ w &&& r.resvMask = 0 := by
  constructor
  · rintro ⟨i, hi⟩
    obtain ⟨r, hr, hm⟩ := exists_row_mnemonic i
    obtain ⟨ho, hresv⟩ := (exists_decodeWord_mnemonic_iff w hr).1 ⟨i, hi, hm.symm⟩
    exact ⟨r, hr, ho.symm, hresv⟩
  · rintro ⟨r, hr, ho, hresv⟩
    obtain ⟨i, hi, -⟩ := (exists_decodeWord_mnemonic_iff w hr).2 ⟨ho.symm, hresv⟩
    exact ⟨i, hi⟩

/-- Settles O4: a word is illegal when no row has its opcode, or when the one row that has it reserves a bit that is set. -/
theorem illegalWordsAreExactlyR95 : Obligations.IllegalWordsAreExactlyR95 := by
  intro w
  change _ ↔ ((opcOf w).toNat = 0 ∨ 8 ≤ (opcOf w).toNat ∨ ∃ r ∈ opcodeTable, r.opc = opcOf w ∧ w &&& r.resvMask ≠ 0)
  rw [← not_exists, exists_decodeWord_iff]
  by_cases hrow : ∃ r ∈ opcodeTable, r.opc = opcOf w
  · obtain ⟨hlo, hhi⟩ := (exists_row_iff _).1 hrow
    obtain ⟨r, hr, ho⟩ := hrow
    have only : ∀ P : OpcodeRow → Prop, (∃ r' ∈ opcodeTable, r'.opc = opcOf w ∧ P r') ↔ P r := fun P =>
      ⟨fun ⟨_, hr', ho', hp⟩ => row_eq_of_opc_eq hr' hr (ho'.trans ho.symm) ▸ hp, fun hp => ⟨r, hr, ho, hp⟩⟩
    simp [only, hlo, hhi]
  · have hout := mt (exists_row_iff (opcOf w)).2 hrow
    refine iff_of_true (fun ⟨r, hr, ho, _⟩ => hrow ⟨r, hr, ho⟩) ?_
    omega

/-! ## The assembler's words (R97) -/

theorem setWidth_lengthField {n : Nat} (h : fieldFits n) : (lengthField n).setWidth 32 = BitVec.ofNat 32 n := by
  rw [← BitVec.ofNat_toNat, toNat_lengthField h]

/-- Settles O5: each layout is its fields shifted into place. -/
theorem assemblerWords : Obligations.AssemblerWords := by
  intro n k b hn hk
  have formatO (o : Byte) : layoutK 0 (lengthField n) o = o.setWidth 32 ||| BitVec.ofNat 32 n <<< 8 := by
    rw [layoutK_eq_shifts, setWidth_lengthField hn]
    simp
  refine ⟨formatO 1, ?_, rfl, rfl, formatO 5, formatO 6, ?_⟩
  · rw [encode, layoutK_eq_shifts, setWidth_lengthField hn, setWidth_lengthField hk]
    rfl
  · rw [encode, layoutS_eq_layoutK]
    cases b <;> rfl

/-! ## Sample words (R90) -/

/-- Settles O6: each word is the encoding of its command, which the decoder reads back. -/
theorem sampleWordsDecode : Obligations.SampleWordsDecode :=
  ⟨decodeWord_encode (i := .init 32) rfl, decodeWord_encode (i := .initKey 20 5) rfl, decodeWord_encode (i := .initParam) rfl,
    decodeWord_encode (i := .update) rfl, decodeWord_encode (i := .final 16) rfl, decodeWord_encode (i := .hmac 32) rfl,
    decodeWord_encode (i := .setln true) rfl⟩

end Sys2Proof

namespace Sys2Proof.Machine

/-! ## The step of a decoded word (R94, R232) -/

/-- Settles O7: an engine that completes runs what the latched word decodes to. -/
theorem stepRunsDecodedCommand : Obligations.StepRunsDecodedCommand := by
  intro s i hc hd
  rw [step_completing hc, hd]

end Sys2Proof.Machine
end

section
/-! PROOFS. The compression core (40_compression.md): what `G` writes and reads, the counter's carry, the ten rounds of `COMPRESS1`, and
compressions of several blocks. -/

namespace Sys2Proof.Machine

/-! ## The mixing function (R123, R124) -/

/-- A rotation by less than the word's width is the two shifts of R123. -/
theorem rotateRight_eq_shifts (z : Word) {n : Nat} (h : n < 32) : z.rotateRight n = z >>> n ||| z <<< (32 - n) := by
  rw [BitVec.rotateRight_def, Nat.mod_eq_of_lt h]

/-- `G` leaves every word it does not name. -/
theorem mixG_frame (v : Vector Word 16) {a b c d k : Fin 16} (x y : Word) (hk : k ∉ [a, b, c, d]) :
    (mixG v a b c d x y)[k] = v[k] := by
  simp only [List.mem_cons, List.not_mem_nil, or_false, not_or] at hk
  obtain ⟨ha, hb, hc, hd⟩ := hk
  rw [mixG, mixPass_frame _ _ _ _ ha hb hc hd, mixPass_frame _ _ _ _ ha hb hc hd]

/-- Settles O35: the second pass of `G` reads the four words the first one wrote. -/
theorem mixingFunctionResult : Obligations.MixingFunctionResult := by
  intro v a b c d x y hab hac had hbc hbd hcd
  obtain ⟨ha1, hd1, hc1, hb1⟩ := mixPass_writes v x 16 12 hab hac had hbc hbd hcd
  obtain ⟨ha2, hd2, hc2, hb2⟩ := mixPass_writes (mixPass v a b c d x 16 12) y 8 7 hab hac had hbc hbd hcd
  simp (disch := decide) only [ha1, hb1, hc1, hd1, rotateRight_eq_shifts] at ha2 hb2 hc2 hd2
  exact ⟨ha2, hb2, hc2, hd2, fun k ha hb hc hd => mixG_frame v x y (by simp [ha, hb, hc, hd])⟩

/-- The two vectors hold the same words at these indices. -/
def AgreeOn (l : List (Fin 16)) (u v : Vector Word 16) : Prop := ∀ k ∈ l, u[k] = v[k]

theorem AgreeOn.set {l : List (Fin 16)} {u v : Vector Word 16} (h : AgreeOn l u v) (i : Fin 16) {x y : Word} (hxy : x = y) :
    AgreeOn l (u.set i x) (v.set i y) := by
  intro k hk
  have hkuv := h k hk
  simp only [Fin.getElem_fin] at hkuv
  simp only [Fin.getElem_fin, Vector.getElem_set, hxy, hkuv]

/-- One pass of `G` reads none but the words it names. -/
theorem AgreeOn.mixPass {l : List (Fin 16)} {u v : Vector Word 16} {a b c d : Fin 16} (h : AgreeOn l u v) (ha : a ∈ l)
    (hb : b ∈ l) (hc : c ∈ l) (hd : d ∈ l) (x : Word) (r1 r2 : Nat) :
    AgreeOn l (mixPass u a b c d x r1 r2) (mixPass v a b c d x r1 r2) := by
  have h1 := h.set a (congrArg₂ (· + · + x) (h a ha) (h b hb))
  have h2 := h1.set d (congrArg₂ (fun p q => (p ^^^ q).rotateRight r1) (h1 d hd) (h1 a ha))
  have h3 := h2.set c (congrArg₂ (· + ·) (h2 c hc) (h2 d hd))
  exact h3.set b (congrArg₂ (fun p q => (p ^^^ q).rotateRight r2) (h3 b hb) (h3 c hc))

/-- `G` reads none but the words it names. -/
theorem AgreeOn.mixG {u v : Vector Word 16} {a b c d : Fin 16} (h : AgreeOn [a, b, c, d] u v) (x y : Word) :
    AgreeOn [a, b, c, d] (mixG u a b c d x y) (mixG v a b c d x y) :=
  (h.mixPass (by simp) (by simp) (by simp) (by simp) x 16 12).mixPass (by simp) (by simp) (by simp) (by simp) y 8 7

/-- A call of `G` on other words, made before or after, does not enter the words a call of `G` writes. -/
theorem mixG_agree_of_disjoint (v : Vector Word 16) {a b c d a' b' c' d' : Fin 16} (x y x' y' : Word)
    (h : [a, b, c, d].Disjoint [a', b', c', d']) :
    AgreeOn [a, b, c, d] (mixG (mixG v a b c d x y) a' b' c' d' x' y') (mixG (mixG v a' b' c' d' x' y') a b c d x y) := by
  have hother : AgreeOn [a, b, c, d] v (mixG v a' b' c' d' x' y') := fun k hk => (mixG_frame v x' y' (h hk)).symm
  intro k hk
  rw [mixG_frame _ x' y' (h hk)]
  exact hother.mixG x y k hk

/-- Two vectors are equal when they agree at every index. -/
theorem eq_of_forall_fin {u v : Vector Word 16} (h : ∀ k : Fin 16, u[k] = v[k]) : u = v :=
  Vector.ext fun i hi => h ⟨i, hi⟩

/-- Settles O36: each call writes its own four words as if the other were not there, and neither writes any other word. -/
theorem disjointMixingCommutes : Obligations.DisjointMixingCommutes := by
  intro v a b c d a' b' c' d' x y x' y' hnodup
  have hdisj : [a, b, c, d].Disjoint [a', b', c', d'] := List.disjoint_of_nodup_append hnodup
  refine eq_of_forall_fin fun k => ?_
  by_cases hk : k ∈ [a, b, c, d]
  · exact mixG_agree_of_disjoint v x y x' y' hdisj k hk
  · by_cases hk' : k ∈ [a', b', c', d']
    · exact (mixG_agree_of_disjoint v x' y' x y hdisj.symm k hk').symm
    · rw [mixG_frame _ x' y' hk', mixG_frame _ x y hk, mixG_frame _ x y hk, mixG_frame _ x' y' hk']

/-! ## The counter (R21, R127) -/

/-- Settles O37: the two words of the counter are its remainder and quotient by 2^32, and an increment of at most 64 carries at most once. -/
theorem counterCarriesOnce : Obligations.CounterCarriesOnce := by
  intro c block inc hinc
  have ht : (compress1 c block inc).t.toNat = (c.t.toNat + inc) % 2 ^ 64 := by
    rw [(compress1_rest c block inc).1, addBytes, BitVec.toNat_add, BitVec.toNat_ofNat, Nat.add_mod_mod]
  have hlt := c.t.isLt
  simp only [BitVec.extractLsb'_toNat, Nat.shiftRight_eq_div_pow, ht]
  refine ⟨by omega, ?_, rfl⟩
  split <;> omega

/-! ## One compression (R121 to R129) -/

/-- The chaining value after a block is the fold of the ten rounds (R129). -/
theorem compressH_eq_fold (h : Vector Word 8) (t : DWord) (f0 f1 : Word) (block : List Byte) :
    compressH h t f0 f1 block = fold h (sigma.foldl (mixRound (messageWords block)) (workVector h t f0 f1)) := by
  rw [compressH]

theorem fold_getElem (h : Vector Word 8) (v : Vector Word 16) (i : Fin 8) :
    (fold h v)[i] = h[i] ^^^ v[i.val]'(by omega) ^^^ v[i.val + 8]'(by omega) := by
  simp [fold]

/-- Settles O38: the schedule, the round, the message words and the start vector written out are the model's own. -/
theorem compressFoldsTenRounds : Obligations.CompressFoldsTenRounds := by
  intro c block inc
  refine ⟨fun i => ?_, rfl⟩
  change (compressH c.h (addBytes c.t inc) c.f0 c.f1 block)[i] = _
  rw [compressH_eq_fold, fold_getElem]
  rfl

/-! ## Several blocks (R125, R172) -/

/-- The first `n` blocks and then the `k` blocks after them are `n + k` blocks. -/
theorem compress_add (c : Ctx) (src : List Byte) (n k inc : Nat) :
    compress c src (n + k) inc = compress (compress c src n inc) (src.drop (64 * n)) k inc := by
  induction n generalizing c src with
  | zero => rw [Nat.zero_add, compress_zero, Nat.mul_zero, List.drop_zero]
  | succ n ih =>
    rw [Nat.succ_add, compress_succ, ih, compress_succ, List.drop_drop, Nat.mul_succ, Nat.add_comm 64]

/-- Settles O39: no block and one block by the definition, `n + k` blocks by induction on `n`. -/
theorem batchedCompressionIsSuccessive : Obligations.BatchedCompressionIsSuccessive := fun c src n k inc =>
  ⟨compress_zero c src inc, compress_one c src inc, compress_add c src n k inc⟩

end Sys2Proof.Machine
end

section
/-! PROOFS. The build (00_scope.md R9): no step changes it, and whether it has an alternative datapath (R131) changes nothing a step does:
each operation of the machine commutes with the change of ACCEL, up to the step itself. -/

namespace Sys2Proof.Machine

/-! ## The build is fixed (R9) -/

theorem State.writeReg_cfg (s : State) (r : Reg) (v : Word) : (s.writeReg r v).cfg = s.cfg := by
  cases r with
  | ctrl =>
    simp only [State.writeReg, State.writeCtrl]
    split
    · split <;> rfl
    · rfl
  | cmd | arg _ =>
    simp only [State.writeReg]
    split <;> rfl
  | status | id | h _ | t0 | t1 | f0 | f1 | buflen | buf _ => rfl

theorem State.event_cfg {s t : State} {e : Event} (he : s.event e = .next t) : t.cfg = s.cfg := by
  rcases State.event_cases he with ⟨-, rfl⟩ | ⟨off, w, -, rfl⟩ | ⟨off, w, v, -, ha, rfl⟩
  · rfl
  · rfl
  · rcases busWrite_cases s off.toNat w v ha with ⟨r, -, -, -, e⟩ | ⟨-, -, e⟩ | e <;> rw [e]
    · exact s.writeReg_cfg r v
    · split <;> rfl

theorem step_cfg {s t : State} (hs : step s = .next t) : t.cfg = s.cfg := by
  rcases step_cases s with ⟨-, i, -, e⟩ | ⟨-, -, e⟩ | ⟨-, -, e⟩ | ⟨ev, rest, -, e⟩ | ⟨-, -, e⟩ <;> rw [e] at hs
  · obtain ⟨hcfg, -⟩ := exec_keeps hs
    exact hcfg
  · cases hs
    rw [State.runIllegal_eq_complete, State.complete_cfg]
  · cases hs; rfl
  · exact State.event_cfg (s := { s with inputs := rest }) hs
  · cases hs; rfl

/-! ## Another build (R131, R267) -/

/-- The state in the build that differs in ACCEL alone. -/
def State.refit (s : State) (b : Bool) : State := { s with cfg := { s.cfg with accel := b } }

/-- The outcome of the same step in the build that differs in ACCEL alone: its next state refitted, or the same stop. -/
def refitOutcome (b : Bool) : Host.Outcome State Fault Refusal → Host.Outcome State Fault Refusal
  | .next s => .next (s.refit b)
  | .fault r => .fault r
  | .refused r => .refused r

section
variable (s : State) (b : Bool)

@[simp] theorem State.refit_status : (s.refit b).status = s.status := rfl
@[simp] theorem State.refit_inputs : (s.refit b).inputs = s.inputs := rfl
@[simp] theorem State.refit_dmemSize : (s.refit b).cfg.dmemSize = s.cfg.dmemSize := rfl
@[simp] theorem State.refit_memRead (a n : Nat) : (s.refit b).memRead a n = s.memRead a n :=
  State.memRead_congr (s := s.refit b) (t := s) rfl rfl a n

theorem State.refit_ite (p : Prop) [Decidable p] (u v : State) :
    (if p then u else v).refit b = if p then u.refit b else v.refit b :=
  apply_ite (State.refit · b) p u v

/-! ### The engine -/

theorem checksOf_refit (i : Instr) : checksOf i (s.refit b) = checksOf i s := by cases i <;> rfl

/-- The commands that read DMEM read the same bytes, and the others read fields that are not the build's. -/
theorem effectOf_refit (i : Instr) : effectOf i (s.refit b) = (effectOf i s).refit b := by
  cases i with
  | initKey _ _ | initParam | update | hmac _ => simp only [effectOf, State.refit_memRead]; rfl
  | init _ | final _ | setln _ => rfl

theorem exec_refit (i : Instr) : exec i (s.refit b) = refitOutcome b (exec i s) := by
  have hcheck : (s.refit b).checkAll (checksOf i (s.refit b)) = s.checkAll (checksOf i s) := by rw [checksOf_refit]; rfl
  simp only [exec_eq, State.runCommand, hcheck, effectOf_refit]
  split <;> rfl

theorem State.runIllegal_refit : (s.refit b).runIllegal = s.runIllegal.refit b := by
  rw [State.runIllegal_eq_complete, State.runIllegal_eq_complete]
  rfl

theorem engineStep_refit : engineStep (s.refit b) = refitOutcome b (engineStep s) := by
  have hfetch : (s.refit b).fetch = s.fetch := rfl
  simp only [engineStep, State.refit_status, hfetch]
  split
  · rfl
  · cases s.fetch with
    | ok i => exact exec_refit s b i
    | error e => exact congrArg Host.Outcome.next (s.runIllegal_refit b)

/-! ### The host -/

theorem State.refit_readReg (r : Reg) : (s.refit b).readReg r = s.readReg r := by cases r <;> rfl

theorem State.refit_busRead (off : Nat) (w : Width) : (s.refit b).busRead off w = s.busRead off w := by
  have hreg : (s.refit b).readReg = s.readReg := funext (s.refit_readReg b)
  simp only [State.busRead, hreg, State.refit_memRead, State.refit_status, State.refit_dmemSize]

theorem State.writeReg_refit (r : Reg) (v : Word) : (s.refit b).writeReg r v = (s.writeReg r v).refit b := by
  cases r with
  | ctrl | cmd | arg _ =>
    simp only [State.writeReg, State.writeCtrl, State.refit_ite]
    rfl
  | status | id | h _ | t0 | t1 | f0 | f1 | buflen | buf _ => rfl

theorem State.busWrite_refit (off : Nat) (w : Width) (v : Word) :
    (s.refit b).busWrite off w v = (s.busWrite off w v).refit b := by
  simp only [State.busWrite, State.refit_dmemSize]
  cases regionOf s.cfg.dmemSize off with
  | registers =>
    cases regAt off with
    | none => rfl
    | some r => exact s.writeReg_refit b r v
  | dmem a =>
    simp only [State.refit_ite]
    rfl
  | unmapped => rfl

theorem State.event_refit (e : Event) : (s.refit b).event e = refitOutcome b (s.event e) := by
  cases e with
  | hardwareReset => rfl
  | access a =>
    cases a with
    | read off w => simp only [State.event, State.access, State.refit_busRead]; split <;> rfl
    | write off w v => simp only [State.event, State.access, State.busWrite_refit]; split <;> rfl

/-! ### The step -/

theorem step_refit : step (s.refit b) = refitOutcome b (step s) := by
  have hturn : (s.refit b).engineTurn = s.engineTurn := rfl
  simp only [step, hturn, State.refit_inputs]
  split
  · exact engineStep_refit s b
  · cases s.inputs with
    | nil => rfl
    | cons i rest => exact State.event_refit { s with inputs := rest } b i.event

end

/-- Settles O60: the step commutes with the change of ACCEL, whether it answers a next state or a fault. -/
theorem datapathChoiceIsUnobservable : Obligations.DatapathChoiceIsUnobservable := by
  intro s b
  have hrefit := step_refit s b
  refine ⟨fun t hs => ⟨step_cfg hs, ?_⟩, fun f hs => ?_⟩ <;> rw [hs] at hrefit <;> exact hrefit

end Sys2Proof.Machine
end

section
/-! PROOFS. The commands that create a context (41_init.md): the words and bytes of a parameter block, the context `PINIT`
makes of it, and what INIT, INIT_PARAM and INIT_KEY answer with legal operands. -/

namespace Sys2Proof.Machine

/-! ## Words of byte strings (R11) -/

/-- Four bytes joined are the bytes shifted into place (R11). -/
theorem wordOfBytes_eq_shifts (b0 b1 b2 b3 : Byte) :
    wordOfBytes b0 b1 b2 b3 =
      b0.setWidth 32 ||| b1.setWidth 32 <<< 8 ||| b2.setWidth 32 <<< 16 ||| b3.setWidth 32 <<< 24 := by
  have hrev (x0 x1 x2 x3 : Word) : x3 ||| x2 ||| x1 ||| x0 = x0 ||| x1 ||| x2 ||| x3 := by ac_rfl
  rw [← BitVec.setWidth_eq (wordOfBytes b0 b1 b2 b3), wordOfBytes,
    BitVec.setWidth_append_append_append_eq_shiftLeft_setWidth_or]
  exact hrev _ _ _ _

theorem le32_append_left {a b : List Byte} {i : Nat} (h : i + 3 < a.length) : le32 (a ++ b) i = le32 a i := by
  simp (disch := omega) only [le32, byteAt_append_left]

theorem le32_append_right {a : List Byte} {n : Nat} (hn : a.length = n) (b : List Byte) (i : Nat) :
    le32 (a ++ b) (n + i) = le32 b i := by
  have hbyte (j : Nat) : byteAt (a ++ b) (n + j) = byteAt b j := by
    rw [byteAt_append_right (by omega), hn, Nat.add_sub_cancel_left]
  simp only [le32, Nat.add_assoc, hbyte]

@[simp] theorem le32_zeros (n i : Nat) : le32 (zeros n) i = 0 := by
  simp only [le32, byteAt_zeros]
  rfl

/-- The words of a DMEM read are those of its bytes (R63). -/
theorem State.le32_memRead (s : State) (a : Nat) {n i : Nat} (h : i + 3 < n) :
    le32 (s.memRead a n) i =
      wordOfBytes (s.dmemByte (a + i)) (s.dmemByte (a + i + 1)) (s.dmemByte (a + i + 2)) (s.dmemByte (a + i + 3)) := by
  simp (disch := omega) only [le32, State.byteAt_memRead, Nat.add_assoc]

/-- A DMEM read is the string whose bytes stand there (R63). -/
theorem State.memRead_eq_of_bytes {s : State} {a n : Nat} {b : List Byte} (hlen : b.length = n)
    (h : ∀ k, k < n → s.dmemByte (a + k) = byteAt b k) : s.memRead a n = b := by
  subst hlen
  refine List.ext_getElem (by simp) fun k _ hk => ?_
  simp [State.memRead_eq_ofFn, h k hk, byteAt, hk]

/-! ## Parameter blocks (R151, R154) -/

/-- The eight words of a parameter block (R151). -/
theorem ParamBlock.le32_bytes (p : ParamBlock) :
    le32 p.bytes 0 = wordOfBytes p.digestLength p.keyLength p.fanout p.depth ∧ le32 p.bytes 4 = p.leafLength ∧
      le32 p.bytes 8 = p.nodeOffset ∧
      le32 p.bytes 12 =
        wordOfBytes (p.xofLength.extractLsb' 0 8) (p.xofLength.extractLsb' 8 8) p.nodeDepth p.innerLength ∧
      le32 p.bytes 16 = le32 p.salt.toList 0 ∧ le32 p.bytes 20 = le32 p.salt.toList 4 ∧
      le32 p.bytes 24 = le32 p.personalization.toList 0 ∧ le32 p.bytes 28 = le32 p.personalization.toList 4 := by
  have hsalt (i : Nat) (h : i + 3 < 8) : le32 p.bytes (16 + i) = le32 p.salt.toList i := by
    rw [ParamBlock.bytes, le32_append_left (by simp [bytesOfWord]; omega), le32_append_right (n := 16) rfl]
  have hpersonal (i : Nat) : le32 p.bytes (24 + i) = le32 p.personalization.toList i := by
    rw [ParamBlock.bytes, le32_append_right (by simp [bytesOfWord])]
  exact ⟨rfl, wordOfBytes_bytes _, wordOfBytes_bytes _, rfl, hsalt 0 (by omega), hsalt 4 (by omega), hpersonal 0, hpersonal 4⟩

/-- The XOF length takes the low half of its word (R151). -/
theorem wordOfBytes_halfword (x : BitVec 16) (b2 b3 : Byte) :
    wordOfBytes (x.extractLsb' 0 8) (x.extractLsb' 8 8) b2 b3 =
      x.setWidth 32 ||| b2.setWidth 32 <<< 16 ||| b3.setWidth 32 <<< 24 := by
  have hx : x.extractLsb' 8 8 ++ x.extractLsb' 0 8 = x :=
    (BitVec.extractLsb'_append_extractLsb'_eq_extractLsb' rfl).trans BitVec.extractLsb'_eq_self
  rw [wordOfBytes_eq_shifts, BitVec.or_comm ((x.extractLsb' 0 8).setWidth 32),
    ← BitVec.setWidth_append_eq_shiftLeft_setWidth_or, hx]

/-- The bytes of `PARAM(n, 0)` (R154). -/
theorem byteAt_param_unkeyed (n : Nat) : ∀ k,
    byteAt (param n 0) k = if k = 0 then BitVec.ofNat 8 n else if k = 2 ∨ k = 3 then 1 else 0
  | 0 | 1 | 2 | 3 => rfl
  | k + 4 => by
    rw [if_neg (by omega), if_neg (by omega)]
    exact byteAt_zeros 28 k

/-- Word 0 of `PARAM(n, k)`: the two lengths, fanout 1 and depth 1 (R154). -/
theorem le32_param_zero {n k : Nat} (hn : fieldFits n) (hk : fieldFits k) :
    le32 (param n k) 0 = (0x01010000 : Word) ||| BitVec.ofNat 32 k <<< 8 ||| BitVec.ofNat 32 n := by
  have hones : (0x01010000 : Word) = (1 : Byte).setWidth 32 <<< 16 ||| (1 : Byte).setWidth 32 <<< 24 := rfl
  have hword : le32 (param n k) 0 = wordOfBytes (lengthField n) (lengthField k) 1 1 := rfl
  rw [hword, wordOfBytes_eq_shifts, setWidth_lengthField hn, setWidth_lengthField hk, hones]
  ac_rfl

/-- Every other word of `PARAM(n, k)` is zero (R154). -/
theorem le32_param_add_four (n k i : Nat) : le32 (param n k) (i + 4) = 0 := by
  rw [Nat.add_comm]
  exact (le32_append_right rfl _ i).trans (le32_zeros 28 i)

/-! ## `PINIT` (R153, R154) -/

/-- `PINIT` writes the chaining value word by word. -/
theorem pinit_h (P : List Byte) : (pinit P).h =
    #v[iv[0] ^^^ le32 P 0, iv[1] ^^^ le32 P 4, iv[2] ^^^ le32 P 8, iv[3] ^^^ le32 P 12, iv[4] ^^^ le32 P 16,
       iv[5] ^^^ le32 P 20, iv[6] ^^^ le32 P 24, iv[7] ^^^ le32 P 28] := rfl

/-- The fields of a block enter the chaining value at their places in R151. -/
theorem pinit_bytes_h (p : ParamBlock) : (pinit p.bytes).h =
    #v[iv[0] ^^^ (p.digestLength.setWidth 32 ||| p.keyLength.setWidth 32 <<< 8 ||| p.fanout.setWidth 32 <<< 16 |||
         p.depth.setWidth 32 <<< 24),
       iv[1] ^^^ p.leafLength, iv[2] ^^^ p.nodeOffset,
       iv[3] ^^^ (p.xofLength.setWidth 32 ||| p.nodeDepth.setWidth 32 <<< 16 ||| p.innerLength.setWidth 32 <<< 24),
       iv[4] ^^^ le32 p.salt.toList 0, iv[5] ^^^ le32 p.salt.toList 4,
       iv[6] ^^^ le32 p.personalization.toList 0, iv[7] ^^^ le32 p.personalization.toList 4] := by
  obtain ⟨h0, h1, h2, h3, h4, h5, h6, h7⟩ := p.le32_bytes
  rw [pinit_h, h0, h1, h2, h3, h4, h5, h6, h7, wordOfBytes_eq_shifts, wordOfBytes_halfword]

/-- The context of 32 DMEM bytes: word `i` of the chaining value takes the four bytes from `4 * i` on (R153). -/
theorem pinit_memRead (s : State) (a : Nat) : pinit (s.memRead a 32) =
    { h := Vector.ofFn fun i => iv[i] ^^^ wordOfBytes (s.dmemByte (a + 4 * i.val)) (s.dmemByte (a + 4 * i.val + 1))
             (s.dmemByte (a + 4 * i.val + 2)) (s.dmemByte (a + 4 * i.val + 3))
      t := 0, f0 := 0, f1 := 0, buf := Vector.replicate 64 0, buflen := 0, lastNode := false, valid := true } := by
  simp (disch := omega) only [pinit, State.le32_memRead]

/-- The context of `PARAM(n, k)` (R154): word 0 holds the two lengths, fanout 1 and depth 1, and every other word is the IV's. -/
theorem pinit_param {n k : Nat} (hn : fieldFits n) (hk : fieldFits k) : pinit (param n k) =
    { h := #v[(0x6A09E667 : Word) ^^^ ((0x01010000 : Word) ||| BitVec.ofNat 32 k <<< 8 ||| BitVec.ofNat 32 n), 0xBB67AE85,
              0x3C6EF372, 0xA54FF53A, 0x510E527F, 0x9B05688C, 0x1F83D9AB, 0x5BE0CD19]
      t := 0, f0 := 0, f1 := 0, buf := Vector.replicate 64 0, buflen := 0, lastNode := false, valid := true } := by
  have hh := pinit_h (param n k)
  simp only [le32_param_zero hn hk, le32_param_add_four] at hh
  exact congrArg (fun h => { pinit (param n k) with h := h }) hh

/-! ## The padded key (R155) -/

theorem length_paddedKey {key : List Byte} (h : key.length ≤ 64) : (paddedKey key).length = 64 := by
  rw [paddedKey, List.length_append, length_zeros, Nat.add_sub_cancel' h]

/-- The padding reads as the zeros past the end of the key. -/
theorem byteAt_paddedKey (key : List Byte) (i : Nat) : byteAt (paddedKey key) i = byteAt key i := by
  by_cases h : i < key.length
  · exact byteAt_append_left h
  · rw [paddedKey, byteAt_append_right (by omega), byteAt_zeros]
    simp [byteAt, Nat.not_lt.1 h]

/-- A whole block put in an empty buffer is buffered, not compressed. -/
theorem upd_pinit_block (P : List Byte) {d : List Byte} (h : d.length = 64) :
    upd (pinit P) d = { pinit P with buf := Vector.ofFn fun j => byteAt d j.val, buflen := 64 } := by
  rw [upd_fits (by rw [h]; rfl), keep]
  have hbuf : putBytes (pinit P).buf (pinit P).buflen d = Vector.ofFn fun j : Fin 64 => byteAt d j.val := by
    refine Vector.ext fun j hj => ?_
    simp [putBytes_getElem, pinit, h, hj]
  rw [hbuf, h]
  rfl

/-! ## The commands -/

/-- An available engine on which every check of a command passes runs the whole command (R232). -/
theorem exec_of_checks_pass {i : Instr} {s : State} (hf : s.status.stfail = false)
    (hc : ∀ c ∈ checksOf i s, c.2 = true) : exec i s = .next ((effectOf i s).complete .ok) := by
  rw [exec_eq, State.runCommand_ok ((checkAll_ok_iff i s).2 ⟨hf, hc⟩)]

/-- INIT with a legal OUTLEN (R150). -/
theorem exec_init_of_legal {s : State} {n : Nat} (hf : s.status.stfail = false) (h1 : 1 ≤ n) (h32 : n ≤ 32) :
    exec (.init n) s = .next (State.complete { s with ctx := pinit (param n 0) } .ok) :=
  exec_of_checks_pass hf (by simp [checksOf, h1, h32])

/-- INIT_PARAM with a valid range (R152). -/
theorem exec_initParam_of_legal {s : State} (hf : s.status.stfail = false) (hr : (s.arg 0).toNat + 32 ≤ s.cfg.dmemSize) :
    exec .initParam s = .next (State.complete { s with ctx := pinit (s.memRead (s.arg 0).toNat 32) } .ok) :=
  exec_of_checks_pass hf (by simp [checksOf, State.argNat, hr])

/-- INIT_KEY with legal lengths and a valid range (R155, R156). -/
theorem exec_initKey_of_legal {s : State} {n k : Nat} (hf : s.status.stfail = false) (hn : 1 ≤ n ∧ n ≤ 32)
    (hk : 1 ≤ k ∧ k ≤ 32) (hr : (s.arg 0).toNat + k ≤ s.cfg.dmemSize) :
    exec (.initKey n k) s = .next (State.complete
      { s with
        ctx := upd (pinit (param n k)) (paddedKey (s.memRead (s.arg 0).toNat k))
        hidden := { s.hidden with initKeyBlock := Vector.replicate 64 0 } } .ok) :=
  exec_of_checks_pass hf (by simp [checksOf, State.argNat, hn, hk, hr])

/-- Settles O17: the key length 0 leaves nothing of its byte in word 0. -/
theorem initCreatesContext : Obligations.InitCreatesContext := by
  intro s n hf h1 h32
  rw [exec_init_of_legal hf h1 h32, pinit_param (by omega) (by omega)]
  rfl

/-- Settles O18: the words of the read are those of its bytes, and `PINIT` takes any block. -/
theorem initParamCreatesContext : Obligations.InitParamCreatesContext := by
  intro s hf hr iv
  rw [exec_initParam_of_legal hf hr, pinit_memRead]
  rfl

/-- Settles O19: the read is the block itself, whose words are its fields. -/
theorem parameterFieldsEnterChainingValue : Obligations.ParameterFieldsEnterChainingValue := by
  intro p iv
  refine ⟨fun s hf hr hbytes => ?_, pinit_bytes_h p, rfl⟩
  rw [exec_initParam_of_legal hf hr, State.memRead_eq_of_bytes p.length_bytes hbytes]
  rfl

/-- Settles O20: an available engine reads the block INIT makes, and a failed one reports E_UNAVAIL for both. -/
theorem initParamOfDefaultBlockIsInit : Obligations.InitParamOfDefaultBlockIsInit := by
  intro s n h1 h32 hr hbytes
  cases hf : s.status.stfail with
  | false =>
    have hread : s.memRead (s.arg 0).toNat 32 = param n 0 :=
      State.memRead_eq_of_bytes (length_param n 0) fun k hk => (hbytes k hk).trans (byteAt_param_unkeyed n k).symm
    rw [exec_initParam_of_legal hf hr, exec_init_of_legal hf h1 h32, hread]
  | true =>
    rw [exec_eq, exec_eq, State.runCommand_error (State.checkAll_unavail hf _) (by decide),
      State.runCommand_error (State.checkAll_unavail hf _) (by decide)]

/-- Settles O21: the padded key is one whole block, and a whole block fits the empty buffer (R155, R171). -/
theorem initKeyBuffersPaddedKey : Obligations.InitKeyBuffersPaddedKey := by
  intro s n k hf hn1 hn32 hk1 hk32 hr
  have hlen : (paddedKey (s.memRead (s.arg 0).toNat k)).length = 64 := length_paddedKey (by rw [State.length_memRead]; omega)
  rw [exec_initKey_of_legal hf ⟨hn1, hn32⟩ ⟨hk1, hk32⟩ hr, upd_pinit_block _ hlen, pinit_param (by omega) (by omega)]
  simp only [byteAt_paddedKey, State.byteAt_memRead_ite]
  rfl

end Sys2Proof.Machine
end

section
/-! PROOFS. `UPD` and the UPDATE command (42_update.md): `UPD` of two strings in turn, the closed form of its three steps, and what
UPDATE answers on a valid context. -/

namespace Sys2Proof.Machine

/-! ## Absorbing in chunks (R174) -/

/-- Absorbing two strings in turn is absorbing them end to end. -/
theorem upd_append (c : Ctx) (a b : List Byte) : upd (upd c a) b = upd c (a ++ b) := by
  induction c, a using upd_induct with
  | fits c a hfit =>
    rw [upd_fits hfit]
    by_cases hb : a.length + b.length ≤ 64 - c.buflen
    · rw [upd_fits (by rw [keep_buflen]; omega), upd_fits (by rw [List.length_append]; exact hb), keep_keep]
    · have htake : (a ++ b).take (64 - c.buflen) = a ++ b.take (64 - (c.buflen + a.length)) := by
        rw [List.take_append, List.take_of_length_le hfit, Nat.sub_sub]
      have hdrop : (a ++ b).drop (64 - c.buflen) = b.drop (64 - (c.buflen + a.length)) := by
        rw [List.drop_append, List.drop_of_length_le hfit, List.nil_append, Nat.sub_sub]
      have hover_b : 64 - (keep c a).buflen < b.length := by rw [keep_buflen]; omega
      have hover : 64 - c.buflen < (a ++ b).length := by rw [List.length_append]; omega
      rw [upd_over hover_b, upd_over hover, keep_buflen, flush_keep, htake, hdrop]
  | exceeds c a hover ih =>
    have hlen : 64 - c.buflen < (a ++ b).length := by rw [List.length_append]; omega
    rw [upd_over hover, ih, upd_over hlen, List.take_append_of_le_length hover.le, List.drop_append_of_le_length hover.le]

/-- Absorbing chunks in turn is absorbing their concatenation. -/
theorem foldl_upd (c : Ctx) (chunks : List (List Byte)) : chunks.foldl upd c = upd c chunks.flatten := by
  induction chunks generalizing c with
  | nil => rfl
  | cons a rest ih => rw [List.foldl_cons, ih, upd_append, List.flatten_cons]

/-- Settles O31: the chunks join whatever the fill length. -/
theorem streamingEquivalence : Obligations.StreamingEquivalence := fun c chunks _ => foldl_upd c chunks

/-! ## The closed form (R171 to R173) -/

/-- Step (2) of R171 compresses every block before the last byte, whatever the length of the data. -/
theorem bulk_eq (c : Ctx) (d : List Byte) :
    bulk c d = (compress c d ((d.length - 1) / 64) 64, d.drop (64 * ((d.length - 1) / 64))) := by
  by_cases h : d.length ≤ 64
  · have hn : (d.length - 1) / 64 = 0 := by omega
    rw [bulk_fits h, hn, compress_zero, Nat.mul_zero, List.drop_zero]
  · have hn : (d.length + 63) / 64 - 1 = (d.length - 1) / 64 := by omega
    rw [bulk_over (by omega), hn]

/-- Data that exceeds the free space: the filled buffer is compressed, then every block of the rest but the last, which is
buffered. -/
theorem upd_exceeds {c : Ctx} {d : List Byte} (h : 64 - c.buflen < d.length) :
    let rest := d.drop (64 - c.buflen)
    let n := (rest.length - 1) / 64
    upd c d = keep (compress (flush c (d.take (64 - c.buflen))) rest n 64) (rest.drop (64 * n)) := by
  have h0 : d.length ≠ 0 := by omega
  simp only [upd, h0, if_false, topOff_over h, bulk_eq]

/-- The buffered bytes and the data copied after them, read as one string. -/
theorem byteAt_buffered_append (buf : Vector Byte 64) {off k : Nat} (d : List Byte) (hoff : off ≤ 64) (hk : k < 64) :
    byteAt (buf.toList.take off ++ d) k = if k < off then buf[k] else byteAt d (k - off) := by
  have hlen : (buf.toList.take off).length = off := by simp [hoff]
  by_cases h : k < off
  · rw [if_pos h, byteAt_append_left (by omega)]
    simp [byteAt, h, hk]
  · rw [if_neg h, byteAt_append_right (by omega), hlen]

/-- A copy that fills the buffer leaves the bytes before it and the data. -/
theorem toList_putBytes_full (buf : Vector Byte 64) {off : Nat} {d : List Byte} (h : off + d.length = 64) :
    (putBytes buf off d).toList = buf.toList.take off ++ d := by
  have hlen : (buf.toList.take off ++ d).length = 64 := by simp; omega
  have hbytes : putBytes buf off d = putBytes buf 0 (buf.toList.take off ++ d) := by
    refine Vector.ext fun k hk => ?_
    have hin : 0 ≤ k ∧ k < 0 + (buf.toList.take off ++ d).length := ⟨Nat.zero_le k, by omega⟩
    rw [putBytes_getElem, putBytes_getElem, if_pos hin, Nat.sub_zero, byteAt_buffered_append buf d (by omega) hk]
    by_cases hoff : k < off
    · rw [if_pos hoff, if_neg (by omega)]
    · rw [if_neg hoff, if_pos (by omega)]
  rw [hbytes, toList_putBytes_block _ _ hlen]

/-- A copy over a zero tail leaves the buffered bytes, the data, and zeros. -/
theorem putBytes_zero_tail {buf : Vector Byte 64} {off : Nat} (d : List Byte) (hoff : off ≤ 64)
    (hz : ∀ k : Fin 64, off ≤ k.val → buf[k] = 0) :
    putBytes buf off d = Vector.ofFn fun k => byteAt (buf.toList.take off ++ d) k.val := by
  refine Vector.ext fun k hk => ?_
  rw [putBytes_getElem, Vector.getElem_ofFn, byteAt_buffered_append buf d hoff hk]
  by_cases hlo : k < off
  · rw [if_pos hlo, if_neg (by omega)]
  · rw [if_neg hlo]
    by_cases hhi : k < off + d.length
    · rw [if_pos (by omega)]
    · rw [if_neg (by omega), byteAt, List.getD_eq_default _ _ (by omega)]
      exact hz ⟨k, hk⟩ (by simpa using hlo)

/-- Data copied to a cleared buffer, and zeros after it. -/
theorem keep_cleared (c : Ctx) (d : List Byte) :
    keep { c with buf := Vector.replicate 64 0, buflen := 0 } d =
      { c with buf := Vector.ofFn fun k => byteAt d k.val, buflen := d.length } := by
  rw [keep, putBytes_zero_tail d (Nat.zero_le _) (by simp), List.take_zero, List.nil_append, Nat.zero_add]

/-- Filling the buffer compresses the first block of the buffered bytes and the data. -/
theorem flush_eq_compress1 {c : Ctx} {d : List Byte} (hc : c.buflen ≤ 64) (h : 64 - c.buflen < d.length) :
    flush c (d.take (64 - c.buflen)) =
      { compress1 c ((c.buf.toList.take c.buflen ++ d).take 64) 64 with buf := Vector.replicate 64 0, buflen := 0 } := by
  have hlen : (c.buf.toList.take c.buflen).length = c.buflen := by simp [hc]
  rw [flush, toList_putBytes_full c.buf (by rw [List.length_take]; omega), List.take_append, hlen,
    List.take_of_length_le (l := c.buf.toList.take c.buflen) (by omega)]

/-- Settles O32: data that fits starts no compression; otherwise the filled buffer is the stream's first block, and
step (2) compresses the blocks after it. -/
theorem updateHoldsBackLastBlock : Obligations.UpdateHoldsBackLastBlock := by
  intro c d hlegal hd stream blocks
  have hc := hlegal.buflen_le
  have hpos : 0 < d.length := List.length_pos_iff.2 hd
  have hbuf : (c.buf.toList.take c.buflen).length = c.buflen := by simp [hc]
  have hlen : stream.length = c.buflen + d.length := by rw [List.length_append, hbuf]
  by_cases hfit : d.length ≤ 64 - c.buflen
  · have hblocks : blocks = 0 := by omega
    rw [upd_fits hfit, hblocks, compress_zero, Nat.mul_zero, List.drop_zero, Nat.sub_zero, hlen, keep,
      putBytes_zero_tail d hc hlegal.tail_zero]
    rfl
  · have hover : 64 - c.buflen < d.length := Nat.lt_of_not_le hfit
    have hrest : stream.drop 64 = d.drop (64 - c.buflen) := by
      rw [List.drop_append, hbuf, List.drop_of_length_le (by omega), List.nil_append]
    have hrestLen : (d.drop (64 - c.buflen)).length = stream.length - 64 := by rw [List.length_drop]; omega
    have hblocks : blocks = (stream.length - 64 - 1) / 64 + 1 := by omega
    rw [upd_exceeds hover, hrestLen, flush_eq_compress1 hc hover, compress_setBuffer, keep_cleared, List.length_drop, hrestLen,
      hblocks, compress_succ, Nat.mul_succ, Nat.add_comm _ 64, ← List.drop_drop, hrest, ← Nat.sub_sub]
    rfl

/-- Settles O33: data that fits is buffered; otherwise one block and then all blocks of the rest but the last move to the counter. -/
theorem bufferLengthTrajectory : Obligations.BufferLengthTrajectory := by
  intro c d hc hd
  by_cases hfit : d.length ≤ 64 - c.buflen
  · rw [upd_fits hfit, keep_buflen, keep_t]
    exact ⟨fun _ => ⟨rfl, rfl⟩, fun hover => absurd hfit (Nat.not_le.2 hover), by omega, by omega⟩
  · have hover : 64 - c.buflen < d.length := Nat.lt_of_not_le hfit
    obtain ⟨-, -, -, hbuflen, -, -⟩ := compress_rest (flush c (d.take (64 - c.buflen))) (d.drop (64 - c.buflen))
      ((d.length - (64 - c.buflen) - 1) / 64) 64
    have hlen : (upd c d).buflen = (d.length - (64 - c.buflen) - 1) % 64 + 1 := by
      rw [upd_exceeds hover, keep_buflen, List.length_drop, hbuflen, flush_buflen, List.length_drop, List.length_drop]
      omega
    have ht : (upd c d).t = c.t + 64 + BitVec.ofNat 64 (64 * ((d.length - (64 - c.buflen) - 1) / 64)) := by
      rw [upd_exceeds hover, keep_t, compress_t, List.length_drop]
      rfl
    exact ⟨fun h => absurd h hfit, fun _ => ⟨hlen, ht⟩, by omega, by omega⟩

/-! ## The command (R170, R175) -/

/-- `UPD` compresses nothing exactly when the data fits the free space (R278). -/
theorem updCompressions_eq_zero_iff (b n : Nat) : updCompressions b n = 0 ↔ n ≤ 64 - b := by
  unfold updCompressions
  split <;> omega

/-- UPDATE on a valid context with a valid range (R170). -/
theorem exec_update_of_legal {s : State} (hf : s.status.stfail = false) (hv : s.ctx.valid = true)
    (hr : s.arg 1 = 0 ∨ (s.arg 0).toNat + (s.arg 1).toNat ≤ s.cfg.dmemSize) :
    exec .update s = .next (State.complete
      { s with
        ctx := upd s.ctx (s.memRead (s.arg 0).toNat (s.arg 1).toNat)
        hidden := if (s.arg 1).toNat ≤ 64 - s.ctx.buflen then s.hidden else s.hidden.eraseWork } .ok) := by
  have hrange : (s.arg 1).toNat = 0 ∨ (s.arg 0).toNat + (s.arg 1).toNat ≤ s.cfg.dmemSize :=
    hr.imp_left (congrArg BitVec.toNat)
  rw [exec_of_checks_pass hf (by simp [checksOf, State.argNat, hv, hrange])]
  simp only [effectOf, State.argNat, updCompressions_eq_zero_iff]

/-- Settles O22: the read is the list of its bytes. -/
theorem updateAbsorbsDmemBytes : Obligations.UpdateAbsorbsDmemBytes := by
  intro s hf hv hr
  rw [exec_update_of_legal hf hv hr, State.memRead_eq_ofFn]
  rfl

/-- Settles O23: no byte is read, and no bytes fit any buffer. -/
theorem emptyUpdateIsNoOp : Obligations.EmptyUpdateIsNoOp := by
  refine ⟨upd_nil, fun s hf hv h0 => ?_⟩
  have hn : (s.arg 1).toNat = 0 := congrArg BitVec.toNat h0
  rw [exec_update_of_legal hf hv (.inl h0), hn, if_pos (Nat.zero_le _)]
  rfl

end Sys2Proof.Machine
end

section
/-! PROOFS. FINAL and SETLN (43_final.md): a command without a context or without error, the last block and its digest byte by
byte, and what the two commands answer on a valid context. -/

namespace Sys2Proof.Machine

/-! ## Commands with and without a context (R232, R233) -/

/-- UPDATE, FINAL and SETLN without a context report E_STATE, whatever their operands (R233, R240). -/
theorem exec_without_context {i : Instr} {s : State} (hi : Instr.needsContext i = true) (hf : s.status.stfail = false)
    (hv : s.ctx.valid = false) : exec i s = .next (s.complete .state) := by
  have hcheck : s.checkAll (checksOf i s) = .state := by
    rw [State.checkAll_avail hf]
    cases i with
    | update | final _ | setln _ => simp [checksOf, hv]
    | init _ | initKey _ _ | initParam | hmac _ => cases hi
  rw [exec_eq, State.runCommand_error hcheck (by decide)]

/-- A command that reports E_OK passed its checks and took its full effect. -/
theorem exec_without_error {i : Instr} {s t : State} (h : exec i s = .next t) (hok : t.status.errcode = .ok) :
    (∀ c ∈ checksOf i s, c.2 = true) ∧ t = (effectOf i s).complete .ok := by
  rcases exec_cases i s with ⟨hcheck, e⟩ | ⟨herr, e⟩ <;> rw [e] at h <;> cases h
  · obtain ⟨-, hpass⟩ := (checkAll_ok_iff i s).1 hcheck
    exact ⟨hpass, rfl⟩
  · exact absurd hok herr

/-- Settles O14: the erased context is not valid, and no command changes the availability. -/
theorem finalEndsTheContext : Obligations.FinalEndsTheContext := by
  intro s t n i hf h hok hi
  obtain ⟨-, -, -, -, -, hstfail, -⟩ := exec_keeps h
  obtain ⟨-, ht⟩ := exec_without_error h hok
  have hneeds : Instr.needsContext i = true := by rcases hi with rfl | ⟨m, rfl⟩ | ⟨b, rfl⟩ <;> rfl
  have hvalid : t.ctx.valid = false := by rw [ht]; rfl
  exact exec_without_context hneeds (hstfail.trans hf) hvalid

/-- Settles O26: a valid context is SETLN's only check. -/
theorem setlnWritesLastNode : Obligations.SetlnWritesLastNode := fun _ _ hf hv =>
  exec_of_checks_pass hf (by simp [checksOf, hv])

/-! ## The digest, byte by byte (R194) -/

/-- Byte `k` of serialised words is byte `k mod 4` of word `k / 4` (R11). -/
theorem getElem?_leBytes (ws : List Word) (k : Nat) :
    (leBytes ws)[k]? = ws[k / 4]?.map fun w => w.extractLsb' (8 * (k % 4)) 8 := by
  induction ws generalizing k with
  | nil => rfl
  | cons w ws ih =>
    match k with
    | 0 | 1 | 2 | 3 => rfl
    | k + 4 =>
      rw [Nat.add_mod_right, Nat.add_div_right k (by decide), List.getElem?_cons_succ, ← ih]
      rfl

theorem getElem?_digest (c : Ctx) {n k : Nat} (hn : k < n) (hk : k < 32) :
    (digest c n)[k]? = some ((c.h[k / 4]'(by omega)).extractLsb' (8 * (k % 4)) 8) := by
  have hword : k / 4 < c.h.toList.length := by rw [Vector.length_toList]; omega
  rw [digest, List.getElem?_take_of_lt hn, getElem?_leBytes, List.getElem?_eq_getElem hword]
  rfl

/-- Settles O40: the digest is a prefix of the serialised chaining value, whose bytes are those of its words. -/
theorem digestIsLittleEndian : Obligations.DigestIsLittleEndian :=
  ⟨fun _ => rfl, fun _ _ => wordOfBytes_eq_shifts _ _ _ _, fun c _ k hn => getElem?_digest c hn k.isLt⟩

/-! ## The last block (R191 to R193) -/

/-- The padded buffer: the buffered bytes, and zeros from the fill length on (R192). -/
theorem padBuffer_buf (c : Ctx) : (padBuffer c).buf = Vector.ofFn fun k => if k.val < c.buflen then c.buf[k] else 0 := by
  refine Vector.ext fun k hk => ?_
  rw [padBuffer, putBytes_getElem, length_zeros, byteAt_zeros, Vector.getElem_ofFn]
  by_cases hlo : k < c.buflen
  · rw [if_neg (by omega), if_pos hlo]
    rfl
  · rw [if_pos (by omega), if_neg hlo]

/-- The chaining value the digest is taken from: the padded buffer compressed under the final flags, with the fill length as
increment. -/
theorem finBlock_h (c : Ctx) : (finBlock c).h =
    compressH c.h (c.t + BitVec.ofNat 64 c.buflen) 0xFFFFFFFF (if c.lastNode then 0xFFFFFFFF else c.f1)
      (List.ofFn fun k : Fin 64 => if k.val < c.buflen then c.buf[k] else 0) := by
  have hbuf := padBuffer_buf (setFinalFlags c)
  rw [finBlock, compress_one, hbuf, Vector.toList_ofFn, List.take_of_length_le (by rw [List.length_ofFn])]
  rfl

/-! ## FINAL (R190, R194, R195) -/

/-- Inside the stored range a store reads back as the string. -/
theorem State.dmemByte_memWrite_add (s : State) (a : Nat) {b : List Byte} {k : Nat} (h : k < b.length) :
    some ((s.memWrite a b).dmemByte (a + k)) = b[k]? := by
  rw [State.dmemByte_memWrite, if_pos (by omega), Nat.add_sub_cancel_left, byteAt, List.getD_eq_getElem _ _ h,
    List.getElem?_eq_getElem h]

/-- FINAL on a valid context with legal operands (R190). -/
theorem exec_final_of_legal {s : State} {n : Nat} (hf : s.status.stfail = false) (hv : s.ctx.valid = true)
    (hn : 1 ≤ n ∧ n ≤ 32) (hr : (s.arg 0).toNat + n ≤ s.cfg.dmemSize) :
    exec (.final n) s = .next (State.complete
      { s.memWrite (s.arg 0).toNat (digest (finBlock s.ctx) n) with ctx := Ctx.erased, hidden := s.hidden.eraseWork } .ok) :=
  exec_of_checks_pass hf (by simp [checksOf, State.argNat, hv, hn, hr])

/-- A FINAL without error leaves its digest at ARG0 (R194). -/
theorem exec_final_dmemByte {s t : State} {n k : Nat} (h : exec (.final n) s = .next t) (hok : t.status.errcode = .ok)
    (hk : k < n) : some (t.dmemByte ((s.arg 0).toNat + k)) = (digest (finBlock s.ctx) n)[k]? := by
  obtain ⟨hpass, rfl⟩ := exec_without_error h hok
  have hn : 1 ≤ n ∧ n ≤ 32 := (legalLength_iff n).1 (hpass (.outlen, legalLength n) (by simp [checksOf]))
  exact State.dmemByte_memWrite_add s _ (by rw [length_fin]; omega)

/-- Settles O24: the digest is the serialised chaining value of the last block, cut to OUTLEN bytes. -/
theorem finalWritesDigestAndErases : Obligations.FinalWritesDigestAndErases := by
  intro s n hf hv h1 h32 hr block h out
  have hout : digest (finBlock s.ctx) n = out := by rw [digest, finBlock_h]; rfl
  have hexec := exec_final_of_legal hf hv ⟨h1, h32⟩ hr
  refine ⟨_, hexec, by rw [hout]; rfl, fun k hk => ?_⟩
  rw [exec_final_dmemByte hexec rfl hk, hout]

/-- Settles O41: both outputs are prefixes of one serialised chaining value. -/
theorem finalTruncates : Obligations.FinalTruncates := by
  intro s t1 t2 n1 n2 hle h1 h2 hok1 hok2 k hk
  have hk2 : k < n2 := Nat.lt_of_lt_of_le hk hle
  refine Option.some.inj ?_
  rw [exec_final_dmemByte h1 hok1 hk, exec_final_dmemByte h2 hok2 hk2, digest, digest, List.getElem?_take_of_lt hk,
    List.getElem?_take_of_lt hk2]

end Sys2Proof.Machine
end

section
/-! PROOFS. HMAC (44_hmac.md): the hash of the construction in one `UPD`, the key block and the nested hash built from it, and what
the command answers with legal operands. -/

namespace Sys2Proof.Machine

/-! ## The hash of the construction (R211 to R213) -/

/-- `H(x)`: the 32-byte unkeyed hash of a string, absorbed in one `UPD` from the context of INIT 32. -/
def unkeyedHash (x : List Byte) : List Byte := (fin (upd (pinit (param 32 0)) x) 32).2

/-- `H(x)` is the serialised chaining value of the last block. That block carries no last-node flag, because `PINIT` sets none. -/
theorem unkeyedHash_eq_compressH (x : List Byte) :
    let c := upd (pinit (param 32 0)) x
    unkeyedHash x =
      leBytes (compressH c.h (c.t + BitVec.ofNat 64 c.buflen) 0xFFFFFFFF 0
        (List.ofFn fun k : Fin 64 => if k.val < c.buflen then c.buf[k] else 0)).toList := by
  intro c
  obtain ⟨-, hf1, hln, -⟩ : c.f0 = 0 ∧ c.f1 = 0 ∧ c.lastNode = false ∧ c.valid = true := upd_rest _ x
  rw [unkeyedHash, fin, digest, List.take_of_length_le (by simp [length_leBytes]), finBlock_h, hf1, hln]
  rfl

/-- A pass is one hash: the padded key block and the text join in one `UPD` (R174). -/
theorem hmacPass_eq_unkeyedHash (keyBlock : List Byte) (pad : Byte) (text : List Byte) :
    (hmacPass keyBlock pad text).2 = unkeyedHash (xorPad keyBlock pad ++ text) := by
  rw [hmacPass, upd_append, unkeyedHash]

/-- The outer digest is the nested hash of the key block and the message (R212, R213). -/
theorem hmacRun_eq_nested (key msg : List Byte) :
    (hmacRun key msg).2 =
      unkeyedHash (xorPad (kblock key) 0x5c ++ unkeyedHash (xorPad (kblock key) 0x36 ++ msg)) := by
  rw [hmacRun, outerPass, innerPass, hmacPass_eq_unkeyedHash, hmacPass_eq_unkeyedHash]

/-! ## The key block (R211) -/

/-- A key longer than a block enters as its zero-padded hash. -/
theorem kblock_of_long {key : List Byte} (h : 64 < key.length) : kblock key = unkeyedHash key ++ zeros 32 := if_pos h

/-- A key of at most a block enters as itself, zero-padded as INIT_KEY pads it. -/
theorem kblock_of_short {key : List Byte} (h : key.length ≤ 64) : kblock key = paddedKey key := if_neg (Nat.not_lt.2 h)

/-- Zeros at the end of a key of at most 64 bytes are part of its padding. -/
theorem paddedKey_append_zeros {key : List Byte} {n : Nat} (h : key.length + n ≤ 64) :
    paddedKey (key ++ zeros n) = paddedKey key := by
  have hsplit : 64 - key.length = n + (64 - (key.length + n)) := by omega
  rw [paddedKey, paddedKey, List.length_append, length_zeros, List.append_assoc, hsplit]
  exact congrArg (key ++ ·) List.replicate_append_replicate

/-- Settles O43: both keys are at most a block, so both enter padded to the same 64 bytes. -/
theorem zeroPaddedKeysCoincide : Obligations.ZeroPaddedKeysCoincide := by
  intro key n h
  have hlen : (key ++ zeros n).length ≤ 64 := by rwa [List.length_append, length_zeros]
  exact (kblock_of_short hlen).trans ((paddedKey_append_zeros h).trans (kblock_of_short (by omega)).symm)

/-! ## The command (R210, R214, R216) -/

/-- The outer digest of the key and the message that HMAC reads from DMEM (R210). -/
def State.hmacDigest (s : State) : List Byte :=
  (hmacRun (s.memRead (s.arg 2).toNat (s.arg 3).toNat) (s.memRead (s.arg 0).toNat (s.arg 1).toNat)).2

theorem State.length_hmacDigest (s : State) : s.hmacDigest.length = 32 := length_hmacRun _ _

/-- HMAC with legal operands (R210). -/
theorem exec_hmac_of_legal {s : State} {n : Nat} (hf : s.status.stfail = false) (hn : 1 ≤ n ∧ n ≤ 32)
    (hmsg : s.arg 1 = 0 ∨ (s.arg 0).toNat + (s.arg 1).toNat ≤ s.cfg.dmemSize)
    (hkey : s.arg 3 = 0 ∨ (s.arg 2).toNat + (s.arg 3).toNat ≤ s.cfg.dmemSize)
    (hout : (s.arg 4).toNat + n ≤ s.cfg.dmemSize) :
    exec (.hmac n) s = .next (State.complete
      { s.memWrite (s.arg 4).toNat (s.hmacDigest.take n) with hidden := s.hidden.afterHmac Ctx.erased } .ok) := by
  have hmsg' : (s.arg 1).toNat = 0 ∨ (s.arg 0).toNat + (s.arg 1).toNat ≤ s.cfg.dmemSize :=
    hmsg.imp_left (congrArg BitVec.toNat)
  have hkey' : (s.arg 3).toNat = 0 ∨ (s.arg 2).toNat + (s.arg 3).toNat ≤ s.cfg.dmemSize :=
    hkey.imp_left (congrArg BitVec.toNat)
  exact exec_of_checks_pass hf (by simp [checksOf, State.argNat, hn, hmsg', hkey', hout])

/-- An HMAC without error leaves the first OUTLEN bytes of the outer digest at ARG4 (R214). -/
theorem exec_hmac_dmemByte {s t : State} {n k : Nat} (h : exec (.hmac n) s = .next t) (hok : t.status.errcode = .ok)
    (hk : k < n) : some (t.dmemByte ((s.arg 4).toNat + k)) = s.hmacDigest[k]? := by
  obtain ⟨hpass, rfl⟩ := exec_without_error h hok
  have hn : 1 ≤ n ∧ n ≤ 32 := (legalLength_iff n).1 (hpass (.outlen, legalLength n) (by simp [checksOf]))
  have hstored : k < (s.hmacDigest.take n).length := by rw [List.length_take, s.length_hmacDigest]; omega
  exact (State.dmemByte_memWrite_add s _ hstored).trans (List.getElem?_take_of_lt hk)

/-- Settles O25: each pass is one hash from the context of INIT 32, and the reads are the lists of their bytes. -/
theorem hmacWritesNestedHash : Obligations.HmacWritesNestedHash := by
  intro s n hf h1 h32 hmsg hkey hout start hash msg key padded inner out
  have hstart : pinit (param 32 0) = start := pinit_param (by decide) (by decide)
  have hhash (x : List Byte) : unkeyedHash x = hash x := by rw [unkeyedHash_eq_compressH, hstart]; rfl
  have hlen : key.length = (s.arg 3).toNat := List.length_ofFn
  have hpadded : kblock key = padded := by
    by_cases hlong : 64 < (s.arg 3).toNat
    · rw [kblock_of_long (by omega), hhash]
      exact (if_pos hlong).symm
    · rw [kblock_of_short (by omega), paddedKey, hlen]
      exact (if_neg hlong).symm
  have hdigest : s.hmacDigest.take n = out := by
    rw [State.hmacDigest, State.memRead_eq_ofFn, State.memRead_eq_ofFn, hmacRun_eq_nested, hpadded, hhash, hhash]
    rfl
  have hexec := exec_hmac_of_legal hf ⟨h1, h32⟩ hmsg hkey hout
  refine ⟨_, hexec, by rw [hdigest]; rfl, fun k hk => ?_⟩
  rw [exec_hmac_dmemByte hexec rfl hk, ← hdigest, List.getElem?_take_of_lt hk]

/-- Settles O42: both outputs are prefixes of one outer digest. -/
theorem hmacTruncates : Obligations.HmacTruncates := by
  intro s t1 t2 n1 n2 hle h1 h2 hok1 hok2 k hk
  refine Option.some.inj ?_
  rw [exec_hmac_dmemByte h1 hok1 hk, exec_hmac_dmemByte h2 hok2 (Nat.lt_of_lt_of_le hk hle)]

end Sys2Proof.Machine
end

section
/-! PROOFS. Errors, completion and availability (60_exceptions.md): the error a command reports, what a completion leaves, what changes
READY and STFAIL, and the interrupt output. -/

namespace Sys2Proof.Machine

/-! ## Idle engines and illegal words (R231, R249) -/

/-- Settles O11: the engine has no turn while BUSY = 0, and the host has no event. -/
theorem idleEngineHoldsItsState : Obligations.IdleEngineHoldsItsState := by
  intro s hidle hin
  simp [step, State.engineTurn, hidle, hin]

/-- A word that is no command completes with E_ILLEGAL, after E_UNAVAIL. -/
theorem step_of_illegal {s : State} {e : DecodeError} (hc : s.Completing) (hd : decodeWord s.pcmd = .error e) :
    step s = .next (s.complete (if s.status.stfail then .unavail else .illegal)) := by
  rw [step_completing hc, hd, ← State.runIllegal_eq_complete]

/-- Settles O9: the completion is the STATUS update of R232 and nothing else. -/
theorem illegalWordCompletesWithError : Obligations.IllegalWordCompletesWithError := fun _ _ hc hd => step_of_illegal hc hd

/-! ## The first failing check (R240) -/

/-- The first check fails, or the rest decide. -/
theorem firstFailing_cons_false (e : ErrCode) (passes : Bool) (rest : List (ErrCode × Bool)) :
    firstFailing ((e, passes) :: rest) = if passes = false then e else firstFailing rest := by
  cases passes <;> rfl

/-- The checks of a command, in their order, report the error R240 requires. -/
theorem checkAll_eq_requiredError (i : Instr) (s : State) : s.checkAll (checksOf i s) = requiredError i s := by
  cases hf : s.status.stfail with
  | true => rw [State.checkAll_unavail hf, requiredError, if_pos hf]
  | false =>
    rw [State.checkAll_avail hf]
    cases i <;>
      simp [checksOf, requiredError, hf, Instr.needsContext, Instr.outlen?, Instr.keylen?, State.ranges,
        firstFailing_cons_false, legalLength_false_iff, validRange_false_iff, Bool.and_eq_false_iff, or_assoc, -Bool.and_eq_false_imp,
        -firstFailing_cons]

/-! ## Completion (R232) -/

/-- The effect of a command leaves STATUS to its completion. -/
theorem effectOf_status (i : Instr) (s : State) : (effectOf i s).status = s.status := by cases i <;> rfl

section
variable {i : Instr} {s t : State} (h : exec i s = .next t)
include h

/-- A command completes with the error R240 requires of it. -/
theorem exec_status : t.status = s.status.completed (requiredError i s) := by
  rw [← checkAll_eq_requiredError]
  rcases exec_cases i s with ⟨hok, e⟩ | ⟨-, e⟩ <;> rw [e] at h <;> cases h
  · rw [hok, State.complete_status, effectOf_status]
  · rfl

/-- With an error a command has no other effect. -/
theorem exec_error (herr : requiredError i s ≠ .ok) : t = s.complete (requiredError i s) := by
  rw [← checkAll_eq_requiredError] at herr ⊢
  rcases exec_cases i s with ⟨hok, -⟩ | ⟨-, e⟩
  · exact absurd hok herr
  · rw [e] at h
    cases h
    rfl

end

/-- Settles O12: the checks and the required error are one order, for each command, and the step runs what it decodes. -/
theorem commandReportsFirstFailingCheck : Obligations.CommandReportsFirstFailingCheck := by
  refine ⟨fun i s => ⟨_, exec_eq i s, exec_status (exec_eq i s), fun herr => ?_⟩, fun s hc => ?_⟩
  · rw [exec_error (exec_eq i s) herr]
    rfl
  · cases hd : decodeWord s.pcmd with
    | ok i =>
      refine ⟨_, (stepRunsDecodedCommand s i hc hd).trans (exec_eq i s), ?_⟩
      rw [exec_status (exec_eq i s), Status.completed_errcode]
    | error e => exact ⟨_, step_of_illegal hc hd, rfl⟩

/-- Settles O13: each of the three commands needs a context. -/
theorem commandsWithoutContextRaiseState : Obligations.CommandsWithoutContextRaiseState := fun _ _ _ hf hv =>
  ⟨exec_without_context rfl hf hv, exec_without_context rfl hf hv, exec_without_context rfl hf hv⟩

/-! ## The interrupt output (R38, R241) -/

/-- The completion of a latched word, command or not, sets DONE and leaves IE. -/
theorem step_done {s t : State} (hc : s.Completing) (hs : step s = .next t) : t.status.done = true ∧ t.ie = s.ie := by
  cases hd : decodeWord s.pcmd with
  | ok i =>
    have h : exec i s = .next t := (stepRunsDecodedCommand s i hc hd).symm.trans hs
    obtain ⟨-, -, hie, -⟩ := exec_keeps h
    exact ⟨by rw [exec_status h, Status.completed_done], hie⟩
  | error e =>
    rw [step_of_illegal hc hd] at hs
    cases hs
    exact ⟨rfl, rfl⟩

/-- Settles O56: a completion sets DONE, an acceptance and a write of bit 1 to STATUS clear it, the other two leave it. -/
theorem interruptFollowsCompletion : Obligations.InterruptFollowsCompletion := by
  refine ⟨fun s => Bool.and_eq_true_iff, fun s t hc hs => ?_, fun s t rest v hidle hhost hs => ?_,
    fun s t rest v hbit hhost hs => ?_, fun s => ⟨rfl, rfl⟩⟩
  · obtain ⟨hdone, hie⟩ := step_done hc hs
    rw [State.irq, hdone, hie, Bool.true_and]
  · rw [step_writeReg (r := .cmd) hhost rfl] at hs
    cases hs
    simp [State.irq, State.writeReg, hidle]
  · rw [step_writeReg (r := .status) hhost rfl] at hs
    cases hs
    simp [State.irq, State.writeReg, hbit]

/-! ## Availability (R237, R260, R264, R266) -/

/-- The event resets the engine: a hardware reset, or a soft reset while BUSY = 0 (R260, R264). -/
abbrev State.Resets (s : State) (e : Event) : Prop :=
  e = .hardwareReset ∨
    (s.status.busy = false ∧ ∃ off v, e = .access (.write off .w32 v) ∧ off.toNat = 0x004 ∧ v.getLsbD 1 = true)

/-- READY and STFAIL stand as they were. -/
abbrev State.SameAvailability (s t : State) : Prop := t.status.ready = s.status.ready ∧ t.status.stfail = s.status.stfail

/-- A register write keeps the availability, or it is a soft reset. -/
theorem State.writeReg_availability (s : State) (r : Reg) (v : Word) :
    s.SameAvailability (s.writeReg r v) ∨
      (s.status.busy = false ∧ r = .ctrl ∧ v.getLsbD 1 = true ∧ (s.writeReg r v).status = Status.afterReset s.cfg) := by
  cases r with
  | ctrl =>
    cases hsrst : v.getLsbD 1
    · rw [State.writeReg, State.writeCtrl_of_not_srst s hsrst]
      exact .inl ⟨rfl, rfl⟩
    · simp only [State.writeReg, State.writeCtrl, hsrst, if_true]
      cases hb : s.status.busy
      · exact .inr ⟨rfl, trivial, trivial, rfl⟩
      · exact .inl ⟨rfl, rfl⟩
  | cmd | arg _ =>
    simp only [State.writeReg]
    split <;> exact .inl ⟨rfl, rfl⟩
  | status | id | h _ | t0 | t1 | f0 | f1 | buflen | buf _ => exact .inl ⟨rfl, rfl⟩

/-- An event keeps the availability, or it is a reset. -/
theorem State.event_availability {s t : State} {e : Event} (he : s.event e = .next t) :
    s.SameAvailability t ∨ (s.Resets e ∧ t.status = Status.afterReset s.cfg) := by
  rcases State.event_cases he with ⟨rfl, rfl⟩ | ⟨off, w, -, rfl⟩ | ⟨off, w, v, rfl, ha, rfl⟩
  · exact .inr ⟨.inl rfl, rfl⟩
  · exact .inl ⟨rfl, rfl⟩
  · rcases busWrite_cases s off.toNat w v ha with ⟨r, hr, rfl, -, e⟩ | ⟨-, -, e⟩ | e <;> rw [e]
    · rcases s.writeReg_availability r v with hsame | ⟨hidle, rfl, hsrst, hreset⟩
      · exact .inl hsame
      · exact .inr ⟨.inr ⟨hidle, off, v, rfl, hr, hsrst⟩, hreset⟩
    · split <;> exact .inl ⟨rfl, rfl⟩
    · exact .inl ⟨rfl, rfl⟩

/-- A step keeps the availability, or it is a reset in the host's turn or the self-test. -/
theorem step_availability {s t : State} (hs : step s = .next t) :
    s.SameAvailability t ∨
      ((∃ e rest, s.HostTurn e rest ∧ s.Resets e) ∧ t.status = Status.afterReset s.cfg) ∨
      (s.status.selfTestPending = true ∧ (∀ i ∈ s.inputs.head?, i.duringBusy = false) ∧ t = s.selfTest) := by
  rcases step_cases s with ⟨-, i, -, e⟩ | ⟨-, -, e⟩ | ⟨hp, hin, e⟩ | ⟨ev, rest, hhost, e⟩ | ⟨-, -, e⟩ <;> rw [e] at hs
  · obtain ⟨-, -, -, -, hready, hstfail, -⟩ := exec_keeps hs
    exact .inl ⟨hready, hstfail⟩
  · cases hs
    rw [State.runIllegal_eq_complete]
    exact .inl ⟨rfl, rfl⟩
  · cases hs
    exact .inr (.inr ⟨hp, hin, rfl⟩)
  · rcases State.event_availability (s := { s with inputs := rest }) hs with hsame | ⟨hreset, hst⟩
    · exact .inl hsame
    · exact .inr (.inl ⟨⟨ev, rest, hhost, hreset⟩, hst⟩)
  · cases hs
    exact .inl ⟨rfl, rfl⟩

/-- While STFAIL = 1 every latched word, command or not, completes with E_UNAVAIL and no other effect. -/
theorem step_of_failed {s : State} (hc : s.Completing) (hf : s.status.stfail = true) :
    step s = .next (s.complete .unavail) := by
  cases hd : decodeWord s.pcmd with
  | ok i =>
    rw [stepRunsDecodedCommand s i hc hd, exec_eq,
      State.runCommand_error (State.checkAll_unavail hf _) (by decide)]
  | error e => rw [step_of_illegal hc hd, if_pos hf]

theorem Status.selfTestPending_iff (st : Status) :
    st.selfTestPending = true ↔ st.busy = true ∧ st.ready = false ∧ st.stfail = false := by
  simp [Status.selfTestPending, and_assoc]

/-- Settles O10: a failed engine runs no self-test, so a step that changes its availability is a reset. -/
theorem failedSelfTestBlocksUntilReset : Obligations.FailedSelfTestBlocksUntilReset := by
  refine ⟨fun s hc hf => step_of_failed hc hf, fun s t hs hf hr hchange => ?_, fun s t hs hr hrise => ?_⟩
  · rcases step_availability hs with ⟨hready, hstfail⟩ | ⟨hreset, hst⟩ | ⟨hp, -, -⟩
    · rw [hready, hstfail, hf, hr] at hchange
      simp at hchange
    · exact ⟨hreset, by rw [hst]; rfl, by rw [hst]; rfl⟩
    · obtain ⟨-, -, hpass⟩ := (Status.selfTestPending_iff _).1 hp
      rw [hpass] at hf
      cases hf
  · rcases step_availability hs with ⟨hready, -⟩ | ⟨hreset, hst⟩ | ⟨hp, hin, rfl⟩
    · rw [hready, hr] at hrise
      cases hrise
    · rw [hst] at hrise
      exact .inl ⟨by simpa [Status.afterReset] using hrise, hreset⟩
    · obtain ⟨hbusy, -, hpass⟩ := (Status.selfTestPending_iff _).1 hp
      exact .inr ⟨hbusy, hpass, hin, by simpa using hrise, rfl⟩

end Sys2Proof.Machine
end

section
/-! PROOFS. Reset and hazards (70_reset_and_hazards.md): the two resets, the self-test step, what a host write does while BUSY = 1, and
the data that no error code depends on. -/

namespace Sys2Proof.Machine

/-! ## Errors and data (R277) -/

/-- The error R240 requires is read off the build, the ARG registers, STFAIL and the validity of the context. -/
theorem requiredError_congr (i : Instr) {s s' : State} (hcfg : s.cfg = s'.cfg) (hargs : s.args = s'.args)
    (hfail : s.status.stfail = s'.status.stfail) (hvalid : s.ctx.valid = s'.ctx.valid) :
    requiredError i s = requiredError i s' := by
  have hranges : s.ranges i = s'.ranges i := by
    cases i <;> simp only [State.ranges, State.argNat, State.arg, hargs]
  simp only [requiredError, hcfg, hfail, hvalid, hranges]

/-- Settles O16: a command reports the error R240 requires, and that reads no data. -/
theorem errorCodeIgnoresData : Obligations.ErrorCodeIgnoresData := by
  intro i s s' t t' hcfg hargs hfail hvalid h h'
  rw [exec_status h, exec_status h', Status.completed_errcode, Status.completed_errcode,
    requiredError_congr i hcfg hargs hfail hvalid]

/-! ## The self-test (R266) -/

/-- In the engine's turn a pending self-test is the step. -/
theorem step_selfTest {s : State} (hturn : s.engineTurn = true) (hp : s.status.selfTestPending = true) :
    step s = .next s.selfTest := by
  rw [step_engine hturn, engineStep, if_pos hp]

/-- Settles O55: the self-test is pending and the turn is the engine's. -/
theorem selfTestDecidesAvailability : Obligations.SelfTestDecidesAvailability := fun s hbusy hready hfail hin =>
  step_selfTest (s.engineTurn_iff.2 ⟨hbusy, hin⟩) ((Status.selfTestPending_iff _).2 ⟨hbusy, hready, hfail⟩)

/-! ## The resets (R260, R262 to R264) -/

/-- A byte that memory does not list reads as the contents DMEM came out of reset with. -/
theorem State.dmemByte_of_mem_nil {s : State} (h : s.mem = []) (a : Nat) : s.dmemByte a = Config.dmemAtReset s.epoch a := by
  rw [State.dmemByte, h]
  rfl

/-- Settles O54: a hardware reset does not look at BUSY and leaves memory without a byte. -/
theorem hardwareResetForgetsDmem : Obligations.HardwareResetForgetsDmem := fun s rest hhost =>
  ⟨({ s with inputs := rest } : State).hardwareReset, step_host hhost, rfl, State.dmemByte_of_mem_nil rfl⟩

/-- A write to CTRL with SRST = 1 writes IE and then resets the engine, or is dropped while BUSY = 1 (R264, R271). -/
theorem State.writeCtrl_of_srst (s : State) {v : Word} (h : v.getLsbD 1 = true) :
    s.writeCtrl v =
      if s.status.busy then { s with ie := v.getLsbD 0 }.dropWrite else { s with ie := v.getLsbD 0 }.softReset := by
  simp only [State.writeCtrl, h, if_true]

section
variable {s : State} {rest : List Input} {off : BitVec 16} {v : Word}

/-- While BUSY = 1 a soft reset is dropped, but its IE bit applies. -/
theorem step_softReset_busy (hbusy : s.status.busy = true) (hoff : off.toNat = 0x004) (hsrst : v.getLsbD 1 = true)
    (hhost : s.HostTurn (.access (.write off .w32 v)) rest) :
    step s = .next { s with inputs := rest, ie := v.getLsbD 0, status := { s.status with ovr := true } } := by
  rw [step_writeReg (r := .ctrl) hhost hoff, State.writeReg, State.writeCtrl_of_srst _ hsrst, if_pos hbusy]
  rfl

/-- While BUSY = 0 a soft reset is done, after the write of its IE bit. -/
theorem step_softReset_idle (hidle : s.status.busy = false) (hoff : off.toNat = 0x004) (hsrst : v.getLsbD 1 = true)
    (hhost : s.HostTurn (.access (.write off .w32 v)) rest) :
    step s = .next { s with inputs := rest, ie := v.getLsbD 0 }.softReset := by
  rw [step_writeReg (r := .ctrl) hhost hoff, State.writeReg, State.writeCtrl_of_srst _ hsrst, if_neg (by simp [hidle])]

end

/-- Settles O53: the soft reset keeps memory and the count of resets, which are all a DMEM byte is read from. -/
theorem softResetKeepsDmem : Obligations.SoftResetKeepsDmem := fun _ _ _ hsrst hhost =>
  ⟨fun hbusy => step_softReset_busy hbusy rfl hsrst hhost,
    fun hidle => ⟨_, step_softReset_idle hidle rfl hsrst hhost, rfl, fun _ => rfl⟩⟩

/-! ## Writes while BUSY = 1 (R271) -/

/-- The register region takes aligned 32-bit accesses alone (R66). -/
theorem accepted_register {off : Nat} {w : Width} (ha : accepted off w) (hreg : off < 0x1000) : w = .w32 ∧ off % 4 = 0 := by
  rcases ha with h | ⟨hwindow, -⟩
  · exact h
  · omega

/-- From CMD up to the end of ARG4 there is a register at every multiple of 4. -/
theorem cmd_or_arg_offset {off : Nat} (halign : off % 4 = 0) (hlo : 0x00C ≤ off) (hhi : off < 0x024) :
    off = Reg.cmd.offset ∨ ∃ i, off = (Reg.arg i).offset := by
  by_cases h : off = 0x00C
  · exact .inl h
  · refine .inr ⟨⟨(off - 0x010) / 4, by omega⟩, ?_⟩
    simp only [Reg.offset]
    omega

/-- While BUSY = 1 an accepted write to CMD, to an ARG register or into the DMEM window is dropped. -/
theorem State.busWrite_dropped {s : State} {off : Nat} {w : Width} (v : Word) (hbusy : s.status.busy = true)
    (ha : accepted off w) (hoff : (0x00C ≤ off ∧ off < 0x024) ∨ (0x1000 ≤ off ∧ off < 0x1000 + s.cfg.dmemSize)) :
    s.busWrite off w v = s.dropWrite := by
  rcases hoff with ⟨hlo, hhi⟩ | ⟨hlo, hhi⟩
  · obtain ⟨-, halign⟩ := accepted_register ha (by omega)
    rcases cmd_or_arg_offset halign hlo hhi with rfl | ⟨i, rfl⟩ <;> rw [busWrite_reg] <;> exact if_pos hbusy
  · simp only [State.busWrite, regionOf_dmem hlo hhi, hbusy, if_true]

/-- Settles O50: each clause is the write of the register, or of the region, at its offset. -/
theorem busyWritesAreDropped : Obligations.BusyWritesAreDropped := by
  intro s rest off w v hbusy ha hhost
  have hw32 : off.toNat < 0x1000 → w = .w32 := fun hreg => (accepted_register ha hreg).1
  refine ⟨fun hoff => ?_, fun hoff hsrst => ?_, fun hoff => ?_, fun hoff hsrst => ?_, fun hoff => ?_⟩
  · rw [step_write hhost ha, State.busWrite_dropped (s := { s with inputs := rest }) v hbusy ha hoff]
    rfl
  · obtain rfl := hw32 (by omega)
    exact step_softReset_busy hbusy hoff hsrst hhost
  · obtain rfl := hw32 (by omega)
    exact step_writeReg (r := .status) hhost hoff
  · obtain rfl := hw32 (by omega)
    rw [step_writeReg (r := .ctrl) hhost hoff, State.writeReg, State.writeCtrl_of_not_srst _ hsrst]
  · rw [step_write hhost ha, State.busWrite_ignored _ w v hoff]

end Sys2Proof.Machine
end
